-- ==== Sys2Proof/Word.lean ====
section
/-! DEFINITION. The block's units: bytes, 16-bit glyphs and 32-bit command words (R8, R64). -/

namespace Sys2Proof

/-- A byte, bits 7..0, bit k of weight 2^k (R8). -/
abbrev Byte := BitVec 8

/-- A 16-bit value: a glyph, a character mask, the B field (R65, R77). -/
abbrev Half := BitVec 16

/-- A command word (R64). -/
abbrev CmdWord := BitVec 32

/-- The 8 bytes of one command buffer or of one interrupt report, byte 0 first (R49, R80, R81). -/
abbrev Bytes8 := Vector Byte 8

end Sys2Proof
end

