-- ==== Sys2Proof/Config.lean ====
section
/-! DEFINITION. The configuration: the static tables and policies the spec leaves as parameters (R7, R31 to R40), the fixture
TI of the spec's test vectors, and the free values of the Transport and of the scheduler. -/

namespace Sys2Proof

/-- A SegmentRef (b, o): buffer id and bit offset in that buffer's payload (R18). -/
structure SegRef where
  id : Byte
  off : Nat
deriving DecidableEq, Repr, Inhabited

/-- An entry (buffer-id, base-bit) of a character outer table (R34). -/
structure OuterRef where
  id : Byte
  base : Nat
deriving DecidableEq, Repr, Inhabited

/-- An entry (group, bit-delta) of a character inner table (R35). -/
structure InnerRef where
  group : Nat
  delta : Nat
deriving DecidableEq, Repr, Inhabited

/-- The two character rows (R98). -/
inductive Row where
  | top
  | bot
deriving DecidableEq, Repr, Inhabited

/-- The policy parameters of R40. -/
structure Policy where
  /-- READ_ERR_LIMIT (D22). -/
  readErrLimit : Nat
  /-- FLUSH_KEEP_DIRTY_ON_ERROR (D28). -/
  flushKeepDirtyOnError : Bool
  /-- LOAD_ATOMIC (D29). -/
  loadAtomic : Bool
deriving DecidableEq, Repr, Inhabited

/-- The defaults of R40. -/
def Policy.standard : Policy :=
  { readErrLimit := 1, flushKeepDirtyOnError := false, loadAtomic := false }

/-- Every parameter of R7 as data, not yet checked. An entry that no rule reads (R33, R35) holds any value. -/
structure ConfigData where
  /-- TEMPLATE (R31). -/
  template : Vector Bytes8 7
  /-- SYMTAB (R32); NSYM is its length. -/
  symtab : List SegRef
  /-- DIGLAYOUT, by position and segment id (R33). -/
  diglayout : Vector (Vector SegRef 8) 11
  /-- TOP_OUTER, by position and group (R34). -/
  topOuter : Vector (Vector OuterRef 3) 8
  /-- BOT_OUTER, by position and group (R34). -/
  botOuter : Vector (Vector OuterRef 2) 4
  /-- CHAR_FLAGS (R35). -/
  charFlags : Half
  /-- TOP_INNER, by flag bit (R35). -/
  topInner : Vector InnerRef 16
  /-- BOT_INNER, by flag bit (R35). -/
  botInner : Vector InnerRef 16
  /-- FONT_DIGIT_TAB (R36). -/
  fontDigit : Vector Byte 16
  /-- FONT_CHAR_TAB, one pair for each code of FONT_CHAR_DEFINED (R37, log 12). -/
  fontChar : List (Byte × Half)
  /-- KEY_SIG (R38). -/
  keySig : Vector Byte 3
  /-- KEY_IDLE (R39). -/
  keyIdle : Byte
  /-- KEY_ERR (R39). -/
  keyErr : Byte
  /-- The policies (R40). -/
  policy : Policy
deriving DecidableEq, Repr

/-- NSYM (R32). -/
def ConfigData.nsym (c : ConfigData) : Nat := c.symtab.length

/-- The Transport's answer to a `Send` (R11). -/
inductive SendOutcome where
  | ok
  | transportError
deriving DecidableEq, Repr, Inhabited

/-- The Transport's answer to a `ReadReport` (R11). -/
inductive ReportOutcome where
  | timeout
  | transportError
  | report (bytes : Bytes8)
deriving DecidableEq, Repr, Inhabited

/-- The two agents of the block (R13). -/
inductive Agent where
  | cp
  | km
deriving DecidableEq, Repr, Inhabited

/-- FREE VALUE (log 5): which agent moves in step n, where the state's own schedule says nothing (R57: every interleaving is
a run). -/
opaque Config.freeAgent : Nat → Agent

/-- FREE VALUE (log 7): what the Transport does with the `Send` after n logged ones, where the state's own answers say nothing;
none when it never answers (R11, R151). -/
opaque Config.freeSend : Nat → Option SendOutcome

/-- FREE VALUE (log 9): what the Transport does with a `ReadReport` made in step n, where the state's own answers say nothing;
none when it never answers (R11, R137). -/
opaque Config.freeReport : Nat → Option ReportOutcome

/-! ### Fixture TI (95_test_vectors.md §1): invented by the spec for its vectors, not the device's tables. -/

/-- Template rows of TI: header 02, cluster (30 + i, 00), payload zero. -/
def fixtureTemplate : Vector Bytes8 7 :=
  #v[#v[0x02, 0x30, 0, 0, 0, 0, 0, 0], #v[0x02, 0x31, 0, 0, 0, 0, 0, 0], #v[0x02, 0x32, 0, 0, 0, 0, 0, 0],
     #v[0x02, 0x33, 0, 0, 0, 0, 0, 0], #v[0x02, 0x34, 0, 0, 0, 0, 0, 0], #v[0x02, 0x35, 0, 0, 0, 0, 0, 0],
     #v[0x02, 0x36, 0, 0, 0, 0, 0, 0]]

/-- A digit position of TI whose ids 0..6 are at consecutive offsets; id 7 is never read. -/
def fixtureDigit (id : Byte) (base : Nat) : Vector SegRef 8 :=
  #v[⟨id, base⟩, ⟨id, base + 1⟩, ⟨id, base + 2⟩, ⟨id, base + 3⟩, ⟨id, base + 4⟩, ⟨id, base + 5⟩, ⟨id, base + 6⟩, ⟨0, 0⟩]

/-- A bar position of TI: only id 7 is read. -/
def fixtureBar (off : Nat) : Vector SegRef 8 :=
  #v[⟨0, 0⟩, ⟨0, 0⟩, ⟨0, 0⟩, ⟨0, 0⟩, ⟨0, 0⟩, ⟨0, 0⟩, ⟨0, 0⟩, ⟨6, off⟩]

/-- TOP_OUTER of TI at position p: (g + 1, 5p). -/
def fixtureTop (p : Nat) : Vector OuterRef 3 := #v[⟨1, 5 * p⟩, ⟨2, 5 * p⟩, ⟨3, 5 * p⟩]

/-- BOT_OUTER of TI at position p: (4 + g, 7p). -/
def fixtureBot (p : Nat) : Vector OuterRef 2 := #v[⟨4, 7 * p⟩, ⟨5, 7 * p⟩]

/-- Fixture TI as data. -/
def fixtureData : ConfigData where
  template := fixtureTemplate
  symtab := (List.range 19).map fun s => ⟨7, s⟩
  diglayout :=
    #v[fixtureBar 35, fixtureDigit 6 0, fixtureDigit 6 7, fixtureBar 36, fixtureDigit 6 14, fixtureDigit 6 21,
       fixtureDigit 6 28, fixtureDigit 7 19, fixtureDigit 7 26, fixtureDigit 7 33, fixtureDigit 4 28]
  topOuter :=
    #v[fixtureTop 0, fixtureTop 1, fixtureTop 2, fixtureTop 3, fixtureTop 4, fixtureTop 5, fixtureTop 6, fixtureTop 7]
  botOuter := #v[fixtureBot 0, fixtureBot 1, fixtureBot 2, fixtureBot 3]
  charFlags := 0xFF3F
  topInner :=
    #v[⟨0, 0⟩, ⟨0, 1⟩, ⟨0, 2⟩, ⟨0, 3⟩, ⟨0, 4⟩, ⟨1, 0⟩, ⟨0, 0⟩, ⟨0, 0⟩,
       ⟨1, 1⟩, ⟨1, 2⟩, ⟨1, 3⟩, ⟨1, 4⟩, ⟨2, 0⟩, ⟨2, 1⟩, ⟨2, 2⟩, ⟨2, 3⟩]
  botInner :=
    #v[⟨0, 0⟩, ⟨0, 1⟩, ⟨0, 2⟩, ⟨0, 3⟩, ⟨0, 4⟩, ⟨0, 5⟩, ⟨0, 0⟩, ⟨0, 0⟩,
       ⟨0, 6⟩, ⟨1, 0⟩, ⟨1, 1⟩, ⟨1, 2⟩, ⟨1, 3⟩, ⟨1, 4⟩, ⟨1, 5⟩, ⟨1, 6⟩]
  fontDigit :=
    #v[0x3F, 0xA8, 0x5B, 0x6B, 0x6C, 0x67, 0x77, 0x29, 0x7F, 0x6F, 0x7D, 0x76, 0x17, 0x7A, 0x57, 0x55]
  fontChar := [(0x20, 0x0000), (0x41, 0x007D), (0x31, 0x0028), (0x49, 0x0303), (0x58, 0xF000), (0x2D, 0x0040)]
  keySig := #v[0x02, 0x42, 0x00]
  keyIdle := 0xFF
  keyErr := 0xFE
  policy := Policy.standard

end Sys2Proof
end

