-- ==== Sys2Proof/Syntax.lean ====
section
/-! DEFINITION. The 13 commands of the opcode map (R67), the command port's transfer (R64, R66), and the lines of the
assembler (R84 to R87). -/

namespace Sys2Proof

/-- One command, one constructor per row of the opcode map (R67). The operands have the width of their fields (R65, R74, R75),
so every value of this type is a command the port can carry; operand ranges are checked when it executes (R68). -/
inductive Instr where
  /-- OPEN (R116). -/
  | openSession
  /-- CLOSE (R117). -/
  | closeSession
  /-- SYM s, on (R95). -/
  | sym (sym : Byte) (on : Bool)
  /-- TDIG p, m8 (R96). -/
  | tdig (pos : Byte) (mask : Byte)
  /-- TCHR p, m16 (R99). -/
  | tchr (pos : Byte) (mask : Half)
  /-- BCHR p, m16 (R100). -/
  | bchr (pos : Byte) (mask : Half)
  /-- CLEAR (R101). -/
  | clear
  /-- FLUSH (R103). -/
  | flush
  /-- SAVE (R118). -/
  | save
  /-- LOAD with its attached text (R119, R66). -/
  | load (text : List Byte)
  /-- GETKEY t (R113). -/
  | getkey (timeout : Half)
  /-- FONTD c (R90). -/
  | fontd (char : Byte)
  /-- FONTC c (R92). -/
  | fontc (char : Byte)
deriving DecidableEq, Repr

/-- What the host puts on the command port: one word and the text attached to it (R64, R66). Only LOAD reads the text. -/
structure Command where
  word : CmdWord
  text : List Byte := []
deriving DecidableEq, Repr, Inhabited

/-- One assembler line after parsing: a mnemonic of R85 or a pseudo-instruction of R87, with operands as the numbers written,
which need not fit their fields yet. -/
inductive AsmLine where
  | openSession
  | closeSession
  | sym (sym on : Nat)
  | tdig (pos mask : Nat)
  | tchr (pos mask : Nat)
  | bchr (pos mask : Nat)
  | clear
  | flush
  | save
  | load (text : List Byte)
  | getkey (timeout : Nat)
  | fontd (char : Nat)
  | fontc (char : Nat)
  | symon (sym : Nat)
  | symoff (sym : Nat)
  | tdigc (pos : Nat) (char : Byte)
  | tdigblank (pos : Nat)
  | tchrc (pos : Nat) (char : Byte)
  | bchrc (pos : Nat) (char : Byte)
  | tstr (pos : Nat) (text : List Byte)
  | bstr (pos : Nat) (text : List Byte)
  | lampchr
deriving DecidableEq, Repr

end Sys2Proof
end

