-- ==== Sys2Proof/WellFormed.lean ====
section
/-! DEFINITION. The well-formedness checks of a configuration (R41), the configuration that has passed them, the configuration
the machine is built with, and the operand checks of the assembler (R85, R87). -/

namespace Sys2Proof

/-- A SegmentRef names a payload bit: b in 1..7 and o in 0..39 (R18). -/
def SegRef.valid (r : SegRef) : Bool := decide (1 ≤ r.id.toNat ∧ r.id.toNat ≤ 7 ∧ r.off < 40)

/-- The segment ids rule R33 says are read at digit position p. -/
def digitIdsRead (p : Fin 11) : List (Fin 8) :=
  if p = 0 ∨ p = 3 then [7] else [0, 1, 2, 3, 4, 5, 6]

/-- The flags of CHAR_FLAGS, by bit number (R35). -/
def ConfigData.resolvedFlags (c : ConfigData) : List (Fin 16) :=
  (List.finRange 16).filter fun f => c.charFlags.getLsbD f

/-- The checks of R41, by the spec's names. -/
inductive ConfigCheck where
  | wfTemplateHdr
  | wfTemplateCluster
  | wfRef
  | wfOuterId
  | wfCharSpan
  | wfInnerGroup
  | wfFlags14
  | wfSym
  | wfSig
  | wfReservedKeys
  | wfLimit
deriving DecidableEq, Repr

/-- All of them, in the order of R41. -/
def ConfigCheck.all : List ConfigCheck :=
  [.wfTemplateHdr, .wfTemplateCluster, .wfRef, .wfOuterId, .wfCharSpan, .wfInnerGroup, .wfFlags14, .wfSym, .wfSig,
   .wfReservedKeys, .wfLimit]

/-- A buffer id of an outer table is in 1..7 (WF_OUTER_ID). -/
def OuterRef.idOk (r : OuterRef) : Bool := decide (1 ≤ r.id.toNat ∧ r.id.toNat ≤ 7)

/-- WF_CHAR_SPAN at one position: base + d is in 0..39 for every flag of CHAR_FLAGS whose group the position has. -/
def spanOk {g : Nat} (c : ConfigData) (outer : Vector OuterRef g) (inner : Vector InnerRef 16) : Bool :=
  c.resolvedFlags.all fun f =>
    match outer[inner[f].group]? with
    | some o => decide (o.base + inner[f].delta < 40)
    | none => true

/-- Whether a configuration passes one check (R41). -/
def ConfigData.passes (c : ConfigData) : ConfigCheck → Bool
  | .wfTemplateHdr => c.template.toList.all fun b => b[0] == 0x02
  | .wfTemplateCluster => decide (c.template.toList.map fun b => (b[1], b[2])).Nodup
  | .wfRef =>
    c.symtab.all SegRef.valid &&
      (List.finRange 11).all fun p => (digitIdsRead p).all fun k => c.diglayout[p][k].valid
  | .wfOuterId =>
    (c.topOuter.toList.all fun v => v.toList.all OuterRef.idOk) &&
      c.botOuter.toList.all fun v => v.toList.all OuterRef.idOk
  | .wfCharSpan =>
    (c.topOuter.toList.all fun v => spanOk c v c.topInner) &&
      c.botOuter.toList.all fun v => spanOk c v c.botInner
  | .wfInnerGroup =>
    c.resolvedFlags.all fun f => decide (c.topInner[f].group < 3 ∧ c.botInner[f].group < 2)
  | .wfFlags14 => c.resolvedFlags.length == 14
  | .wfSym => decide (c.nsym ≤ 256)
  | .wfSig => c.keySig != #v[0x02, 0x99, 0x00]
  | .wfReservedKeys => c.keyIdle != c.keyErr
  | .wfLimit => decide (1 ≤ c.policy.readErrLimit)

/-- A configuration is well-formed iff every check holds (R41). -/
def ConfigData.wf (c : ConfigData) : Bool := ConfigCheck.all.all c.passes

/-- The checks a configuration fails. -/
def ConfigData.failing (c : ConfigData) : List ConfigCheck := ConfigCheck.all.filter fun k => !c.passes k

/-- A configuration that has passed every check. No command has a meaning under any other one (R41): a machine state carries a
value of this type (log 3). -/
structure Config where
  data : ConfigData
  ok : data.wf = true
deriving DecidableEq, Repr

/-- Building the machine with a configuration: refused as a whole, with the failing checks, when it is ill-formed (R41, R144). -/
def Config.ofData (c : ConfigData) : Except (List ConfigCheck) Config :=
  if h : c.wf = true then .ok ⟨c, h⟩ else .error c.failing

theorem fixtureData_wf : fixtureData.wf = true := by decide

/-- Fixture TI, well-formed as its file says (95_test_vectors.md §1). -/
def Config.fixture : Config := ⟨fixtureData, fixtureData_wf⟩

/-- FREE VALUE (log 2): the device's configuration, some well-formed one. The argument only shows Lean that a well-formed
configuration exists; nothing can be proved about the value from it. -/
opaque Config.device (inhabited : Inhabited Config) : Config

/-- The same configuration with other policies (R40). -/
def ConfigData.withPolicy (c : ConfigData) (p : Policy) : ConfigData := { c with policy := p }

theorem ConfigData.withPolicy_wf (c : ConfigData) (p : Policy) (h : c.wf = true) (hp : 1 ≤ p.readErrLimit) :
    (c.withPolicy p).wf = true := by
  have key : ∀ k, c.passes k = true → (c.withPolicy p).passes k = true := by
    intro k hk
    cases k <;> first | exact hk | exact decide_eq_true hp
  simp only [ConfigData.wf, List.all_eq_true] at h ⊢
  exact fun k hk => key k (h k hk)

/-- A checked configuration with other policies. -/
def Config.withPolicy (c : Config) (p : Policy) (hp : 1 ≤ p.readErrLimit) : Config :=
  ⟨c.data.withPolicy p, c.data.withPolicy_wf p c.ok hp⟩

/-- The configuration of the machine at reset: the device's own tables, whatever they are, and the default policies of R40. -/
def Config.standard : Config :=
  (Config.device ⟨Config.fixture⟩).withPolicy Policy.standard (by decide)

/-- Whether every operand of an assembler line fits its field, and a string its row: what assembly checks (R85, R87). -/
def AsmLine.wf : AsmLine → Bool
  | .sym s on => decide (s < 256 ∧ on < 2)
  | .tdig p m => decide (p < 256 ∧ m < 256)
  | .tchr p m => decide (p < 256 ∧ m < 65536)
  | .bchr p m => decide (p < 256 ∧ m < 65536)
  | .getkey t => decide (t < 65536)
  | .fontd c => decide (c < 256)
  | .fontc c => decide (c < 256)
  | .symon s => decide (s < 256)
  | .symoff s => decide (s < 256)
  | .tdigc p _ => decide (p < 256)
  | .tdigblank p => decide (p < 256)
  | .tchrc p _ => decide (p < 256)
  | .bchrc p _ => decide (p < 256)
  | .tstr p t => decide (p + t.length ≤ 8)
  | .bstr p t => decide (p + t.length ≤ 4)
  | .openSession => true
  | .closeSession => true
  | .clear => true
  | .flush => true
  | .save => true
  | .load _ => true
  | .lampchr => true

end Sys2Proof
end

