-- ==== Sys2Proof/Decode.lean ====
section
/-! DEFINITION. The decoder, total on every command word (R64 to R73), and the encoder written from the same opcode map (R67,
R85). -/

namespace Sys2Proof

/-- Field OP = w[31:24] (R65). -/
def fieldOp (w : CmdWord) : Byte := w.extractLsb' 24 8

/-- Field A = w[23:16] (R65). -/
def fieldA (w : CmdWord) : Byte := w.extractLsb' 16 8

/-- Field B = w[15:0] (R65). -/
def fieldB (w : CmdWord) : Half := w.extractLsb' 0 16

/-- Sub-field on = B[0] (R65). -/
def subOn (b : Half) : Bool := b.getLsbD 0

/-- Sub-field m8 = B[7:0] (R65). -/
def subM8 (b : Half) : Byte := b.extractLsb' 0 8

/-- Why a word is no command (R71), by the names of that rule. -/
inductive DecodeIllegal where
  /-- Illegal(Opcode): no command has this OP (R69). -/
  | opcode
  /-- Illegal(ReservedBits): a legal OP with a reserved bit set (R70). -/
  | reservedBits
deriving DecidableEq, Repr

/-- One row of the opcode map: a word is this command iff its bits under the mask are the pattern (R67). -/
structure OpRow where
  mnemonic : String
  pattern : CmdWord
  mask : CmdWord
  /-- The command the row builds from A, B and the attached text (R71, R66). -/
  command : Byte → Half → List Byte → Instr

/-- The opcode map (R67). -/
def opRows : List OpRow :=
  [{ mnemonic := "OPEN", pattern := 0x01000000, mask := 0xFFFFFFFF, command := fun _ _ _ => .openSession },
   { mnemonic := "CLOSE", pattern := 0x02000000, mask := 0xFFFFFFFF, command := fun _ _ _ => .closeSession },
   { mnemonic := "SYM", pattern := 0x10000000, mask := 0xFF00FFFE, command := fun a b _ => .sym a (subOn b) },
   { mnemonic := "TDIG", pattern := 0x11000000, mask := 0xFF00FF00, command := fun a b _ => .tdig a (subM8 b) },
   { mnemonic := "TCHR", pattern := 0x12000000, mask := 0xFF000000, command := fun a b _ => .tchr a b },
   { mnemonic := "BCHR", pattern := 0x13000000, mask := 0xFF000000, command := fun a b _ => .bchr a b },
   { mnemonic := "CLEAR", pattern := 0x14000000, mask := 0xFFFFFFFF, command := fun _ _ _ => .clear },
   { mnemonic := "FLUSH", pattern := 0x20000000, mask := 0xFFFFFFFF, command := fun _ _ _ => .flush },
   { mnemonic := "SAVE", pattern := 0x30000000, mask := 0xFFFFFFFF, command := fun _ _ _ => .save },
   { mnemonic := "LOAD", pattern := 0x31000000, mask := 0xFFFFFFFF, command := fun _ _ t => .load t },
   { mnemonic := "GETKEY", pattern := 0x40000000, mask := 0xFFFF0000, command := fun _ b _ => .getkey b },
   { mnemonic := "FONTD", pattern := 0x50000000, mask := 0xFF00FFFF, command := fun a _ _ => .fontd a },
   { mnemonic := "FONTC", pattern := 0x51000000, mask := 0xFF00FFFF, command := fun a _ _ => .fontc a }]

/-- A row selects a word (R67). -/
def OpRow.selects (r : OpRow) (w : CmdWord) : Bool := w &&& r.mask == r.pattern

/-- The decoder of R71. The text goes to the one command that takes it, LOAD (R66, log 14). -/
def decode (w : CmdWord) (text : List Byte) : Except DecodeIllegal Instr :=
  match opRows.find? (fun r => r.selects w) with
  | some r => .ok (r.command (fieldA w) (fieldB w) text)
  | none => if opRows.any (fun r => fieldOp r.pattern == fieldOp w) then .error .reservedBits else .error .opcode

/-- What the port carries for a command (R66). -/
def decodeCommand (c : Command) : Except DecodeIllegal Instr := decode c.word c.text

/-- A word from its three fields (R64). -/
def packWord (op : Byte) (a : Byte) (b : Half) : CmdWord :=
  op.setWidth 32 <<< 24 ||| a.setWidth 32 <<< 16 ||| b.setWidth 32

/-- The word of a command (R85). -/
def encodeWord : Instr → CmdWord
  | .openSession => packWord 0x01 0 0
  | .closeSession => packWord 0x02 0 0
  | .sym s on => packWord 0x10 s (if on then 1 else 0)
  | .tdig p m => packWord 0x11 p (m.setWidth 16)
  | .tchr p m => packWord 0x12 p m
  | .bchr p m => packWord 0x13 p m
  | .clear => packWord 0x14 0 0
  | .flush => packWord 0x20 0 0
  | .save => packWord 0x30 0 0
  | .load _ => packWord 0x31 0 0
  | .getkey t => packWord 0x40 0 t
  | .fontd c => packWord 0x50 c 0
  | .fontc c => packWord 0x51 c 0

/-- The text a command carries with its word (R66). -/
def attachedText : Instr → List Byte
  | .openSession => []
  | .closeSession => []
  | .sym _ _ => []
  | .tdig _ _ => []
  | .tchr _ _ => []
  | .bchr _ _ => []
  | .clear => []
  | .flush => []
  | .save => []
  | .load t => t
  | .getkey _ => []
  | .fontd _ => []
  | .fontc _ => []

/-- The encoder: the word and the text of a command (R85, R66). -/
def encode (i : Instr) : Command := { word := encodeWord i, text := attachedText i }

/-- The command in the word w, with no text attached: the host's question about an opcode-table row. The table gives every row
32 bits, so the bits above nbits that the interface asks to be 0 are bits of w. -/
def decodeTableWord (nbits w : Nat) : Option Instr :=
  match decode (BitVec.ofNat 32 (w % 2 ^ nbits)) [] with
  | .ok i => some i
  | .error _ => none

end Sys2Proof
end

