-- ==== Sys2Proof/Machine/State.lean ====
section
/-! DEFINITION. The machine's state as plain data: every piece of state the spec gives the block (R13 to R30, R42), the
inputs of a run, the response on the port, the reasons a step can stop, and the state at power-up. -/

namespace Sys2Proof.Machine

/-- Whether a display session exists (R14). -/
inductive Phase where
  | closed
  | opened
deriving DecidableEq, Repr

/-- The monitor state (R22). -/
inductive Monitor where
  | stopped
  | running
  | terminated
deriving DecidableEq, Repr

/-- The one-event channel (R23). -/
inductive Channel where
  | empty
  | full (event : Byte)
deriving DecidableEq, Repr

/-- The status a command ends with (R123). -/
inductive Status where
  | ok
  | invalidCode
  | invalidSymbol
  | invalidPosition
  | invalidFormat
  | transportError
  /-- A Transport outcome only: no command returns it (R107, R123, R134). -/
  | timeout
  | monitorTerminated
  | illegalCommand
  | idle
deriving DecidableEq, Repr

/-- The data of a response: empty, one byte, two bytes or a byte string (R26, R66). Error data is one byte (log 16). -/
inductive RespData where
  | none
  | byte (b : Byte)
  | half (h : Half)
  | text (t : List Byte)
deriving DecidableEq, Repr

/-- What the host gets back for a command (R26). -/
structure Response where
  status : Status
  data : RespData
deriving DecidableEq, Repr

/-- The causes of IllegalCommand (R123). -/
inductive IllegalCause where
  | opcode
  | reservedBits
  | wrongPhase
deriving DecidableEq, Repr

/-- One record of the send log (R27); seq is the number of records before it (log 11). -/
structure SendRecord where
  seq : Nat
  index : Fin 7
  bytes : Bytes8
  outcome : SendOutcome
deriving DecidableEq, Repr

/-- The buffer space (R45, R46): pairs of a linear address and a byte, in the canonical form of `Memory.wf`. -/
abbrev Memory := List Host.Cell

/-- What an unlisted address of the buffer space reads as (log 4). OPEN writes all 56 bytes before any rule reads one. -/
def Memory.unlisted : Byte := 0

/-- The canonical form: addresses strictly rising, and no entry equal to what an unlisted address reads as. -/
abbrev Memory.wf (m : Memory) : Prop :=
  m.Pairwise (fun a b => a.1 < b.1) ∧ ∀ c ∈ m, c.2 ≠ Memory.unlisted

/-- Everything the spec gives the machine, the configuration it runs under, and the inputs of the run. -/
structure State where
  /-- The configuration: fixed, written by no step (R7, R25, log 1). -/
  cfg : Config
  /-- R14. -/
  phase : Phase
  /-- The BufferSet (R15, R46); while `phase` is closed it is absent and no rule reads it (R42, log 4). -/
  buf : Memory
  /-- The dirty mask, bit i for buffer index i (R19); absent while `phase` is closed (R42, log 4). -/
  dirty : BitVec 7
  /-- R22. -/
  mon : Monitor
  /-- R23. -/
  chan : Channel
  /-- R24. -/
  errcnt : Nat
  /-- The command index (R30). -/
  cidx : Nat
  /-- R27, oldest first. -/
  sendlog : List SendRecord
  /-- The response standing on the port: the last completed command's (R26, log 10). -/
  resp : Option Response
  /-- INPUT: the host's commands, the next one first (R44, R138, log 6). -/
  port : List Command
  /-- INPUT: which agent moves in the coming steps (R57, log 5). -/
  sched : List Agent
  /-- INPUT: the Transport's coming answers to `Send`; none: it never answers (R11, R151, log 7). -/
  sends : List (Option SendOutcome)
  /-- INPUT: the Transport's coming answers to `ReadReport`; none: it never answers (R11, R137, log 9). -/
  reports : List (Option ReportOutcome)
  /-- CP waits for ever inside a FLUSH, in the Send of this buffer (R151, log 8). -/
  cpWait : Option (Fin 7)
  /-- KM waits for ever inside a ReadReport (R137, log 9). -/
  kmWait : Bool
  /-- How many steps the model has made: the index of the free values (log 5). -/
  ticks : Nat
deriving DecidableEq, Repr

/-- Why a step stops with a fault. No well-formed configuration reaches either of them (R41, log 13). -/
inductive Fault where
  /-- Raised by a setter whose table entry is not there (a group no outer table has, R35, WF_INNER_GROUP). Safe. -/
  | tableEntry
  /-- Raised by SET_BIT for a bit offset of 40 or more, to which the spec gives no meaning (R93). Safe. -/
  | segmentOffset
deriving DecidableEq, Repr

/-- Why a step gives an instruction no meaning. -/
inductive Refusal where
  /-- Raised by an arm of exec whose instruction has no meaning yet. Safe. -/
  | notModelled (mnemonic : String)
deriving DecidableEq, Repr

/-- What a step answers (Host/Core.lean). -/
abbrev Outcome := Host.Outcome State Fault Refusal

/-- The block at power-up under a given configuration (R42, R142): phase Closed, no buffers, monitor stopped, channel empty,
counters 0, log empty; no input given yet (log 4 to 10). -/
def State.powerUp (c : Config) : State where
  cfg := c
  phase := .closed
  buf := []
  dirty := 0
  mon := .stopped
  chan := .empty
  errcnt := 0
  cidx := 0
  sendlog := []
  resp := none
  port := []
  sched := []
  sends := []
  reports := []
  cpWait := none
  kmWait := false
  ticks := 0

/-- The machine right after reset: power-up (R142) with the device's configuration (log 2). -/
def State.reset : State := State.powerUp Config.standard

end Sys2Proof.Machine
end

