-- ==== Sys2Proof/Machine/Ops.lean ====
section
/-! DEFINITION. The named operations: the buffer space, ending a command with a status, phase gating, the Transport's
answers, and the scheduler. -/

namespace Sys2Proof.Machine

/-! ### The buffer space (R45 to R47) -/

/-- The byte at a linear address. -/
def Memory.read : Memory → Nat → Byte
  | [], _ => Memory.unlisted
  | (a, v) :: m, x => if x = a then v else Memory.read m x

/-- The cell put before a memory, unless it would hold what an unlisted address reads as. -/
def Memory.cons (a : Nat) (v : Byte) (m : Memory) : Memory :=
  if v = Memory.unlisted then m else (a, v) :: m

/-- One byte written; the canonical form is kept. -/
def Memory.write : Memory → Nat → Byte → Memory
  | [], x, w => Memory.cons x w []
  | (a, v) :: m, x, w =>
    if x < a then Memory.cons x w ((a, v) :: m)
    else if x = a then Memory.cons x w m
    else (a, v) :: Memory.write m x w

/-- The size of the buffer space (R46). -/
def bufferSpace : Nat := 56

/-- Linear address of buf[i][k] (R46). -/
def linear (i : Fin 7) (k : Fin 8) : Nat := 8 * i.val + k.val

/-- The byte at a linear address of the state's buffers. -/
def State.byteAt (s : State) (a : Nat) : Byte := s.buf.read a

/-- buf[i][k] (R9). -/
def State.bufByte (s : State) (i : Fin 7) (k : Fin 8) : Byte := s.byteAt (linear i k)

/-- The 8 bytes of buf[i], byte 0 first (R49). -/
def State.buffer (s : State) (i : Fin 7) : Bytes8 :=
  #v[s.bufByte i 0, s.bufByte i 1, s.bufByte i 2, s.bufByte i 3, s.bufByte i 4, s.bufByte i 5, s.bufByte i 6, s.bufByte i 7]

/-- MemRead(a, n): defined only when a + n ≤ 56 (R46). -/
def State.memRead (s : State) (a n : Nat) : Option (List Byte) :=
  if a + n ≤ bufferSpace then some ((List.range' a n).map s.byteAt) else none

/-- The bytes of v at a, a + 1, ... -/
def Memory.writeList : Memory → Nat → List Byte → Memory
  | m, _, [] => m
  | m, a, v :: vs => Memory.writeList (m.write a v) (a + 1) vs

/-- MemWrite(a, n, v) with n the length of v: defined only when a + n ≤ 56 (R46). -/
def State.memWrite (s : State) (a : Nat) (v : List Byte) : Option State :=
  if a + v.length ≤ bufferSpace then some { s with buf := s.buf.writeList a v } else none

/-- One byte of a buffer written, and nothing else. -/
def State.setByte (s : State) (a : Nat) (v : Byte) : State := { s with buf := s.buf.write a v }

/-- The payload addresses: every a in 0..55 with a mod 8 ≥ 3 (R17, R18). -/
def payloadAddresses : List Nat := (List.range bufferSpace).filter fun a => 3 ≤ a % 8

/-- Every payload byte 0x00 (R101). Irreducible: no proof by unfolding evaluates its 35 writes; `Memory.read_zeroPayload` says
what it leaves. -/
@[irreducible] def Memory.zeroPayload (m : Memory) : Memory := payloadAddresses.foldl (fun m a => m.write a 0) m

/-- The BufferSet seeded from TEMPLATE (R31, R116). -/
def Memory.ofTemplate (t : Vector Bytes8 7) : Memory :=
  Memory.writeList [] 0 (t.toList.flatMap Vector.toList)

/-! ### Ending a command (R10, R26, R30) -/

/-- A command completes: its response replaces the one on the port, and `cidx` advances by one whatever the status. -/
def State.complete (s : State) (status : Status) (data : RespData) : State :=
  { s with cidx := s.cidx + 1, resp := some { status := status, data := data } }

/-- `return OK(data)` (R10). -/
def returnOk (data : RespData) (s : State) : Outcome := .next (s.complete .ok data)

/-- `raise E(info)`: there is no trap, vector or saved context (R10, R128); the command ends with the status and one byte of
data, and writes nothing more. -/
def raise (status : Status) (info : Byte) (s : State) : Outcome := .next (s.complete status (.byte info))

/-- The cause byte of IllegalCommand (R123). -/
def IllegalCause.code : IllegalCause → Byte
  | .opcode => 0
  | .reservedBits => 1
  | .wrongPhase => 2

/-- The numeric code of a status (R123). -/
def Status.code : Status → Nat
  | .ok => 0
  | .invalidCode => 1
  | .invalidSymbol => 2
  | .invalidPosition => 3
  | .invalidFormat => 4
  | .transportError => 5
  | .timeout => 6
  | .monitorTerminated => 7
  | .illegalCommand => 8
  | .idle => 9

/-- A command or a word ends as IllegalCommand with its cause, and writes no state (R69, R70, R125). -/
def illegal (cause : IllegalCause) (s : State) : Outcome := raise .illegalCommand cause.code s

/-- What a word that decodes to no command does (R69, R70, R126). -/
def illegalWord (why : DecodeIllegal) (s : State) : Outcome :=
  match why with
  | .opcode => illegal .opcode s
  | .reservedBits => illegal .reservedBits s

/-- The phase check of every command but OPEN, FONTD and FONTC (R125). -/
def whenOpen (s : State) (body : State → Outcome) : Outcome :=
  match s.phase with
  | .opened => body s
  | .closed => illegal .wrongPhase s

/-- The phase check of OPEN (R125). -/
def whenClosed (s : State) (body : State → Outcome) : Outcome :=
  match s.phase with
  | .closed => body s
  | .opened => illegal .wrongPhase s

/-! ### The Transport's answers (R11) -/

/-- The next answer to a `Send`, none when it never answers. -/
def State.nextSend (s : State) : Option SendOutcome :=
  match s.sends with
  | d :: _ => d
  | [] => Config.freeSend s.sendlog.length

/-- The next answer to a `ReadReport`, none when it never answers. -/
def State.nextReport (s : State) : Option ReportOutcome :=
  match s.reports with
  | d :: _ => d
  | [] => Config.freeReport s.ticks

/-- The state once the Transport has answered a `Send` of buffer i: the answer is used up, and one record is logged (R27). -/
def State.logSend (s : State) (i : Fin 7) (outcome : SendOutcome) : State :=
  { s with
    sends := s.sends.tail
    sendlog := s.sendlog ++ [{ seq := s.sendlog.length, index := i, bytes := s.buffer i, outcome := outcome }] }

/-! ### The scheduler (R57) -/

/-- The agent that moves in this step. -/
def State.nextAgent (s : State) : Agent :=
  match s.sched with
  | a :: _ => a
  | [] => Config.freeAgent s.ticks

/-- The schedule after this step. -/
def State.advance (s : State) : State := { s with sched := s.sched.tail, ticks := s.ticks + 1 }

end Sys2Proof.Machine
end

