-- ==== Sys2Proof/Machine/Flags.lean ====
section
/-! DEFINITION. The block has no condition flags (R29): its only flag-like state is the dirty mask (R19, R20). -/

namespace Sys2Proof.Machine

/-- dirty[i] <- 1 (R93, R119). -/
def State.markDirty (s : State) (i : Nat) : State := { s with dirty := s.dirty ||| (1#7 <<< i) }

/-- The whole mask written (R101, R103, R121). -/
def State.setDirty (s : State) (d : BitVec 7) : State := { s with dirty := d }

/-- Every buffer dirty (R101). -/
def allDirty : BitVec 7 := 0x7F

/-- Whether buffer index i is dirty (R19). -/
def State.isDirty (s : State) (i : Fin 7) : Bool := s.dirty.getLsbD i

end Sys2Proof.Machine
end

