-- ==== Sys2Proof/Machine/Flush.lean ====
section
/-! DEFINITION. FLUSH (43_flush.md) and the device image its records give (R28). -/

namespace Sys2Proof.Machine

/-- How the sends of a FLUSH end, with the state they leave. -/
inductive FlushEnd where
  /-- Every dirty buffer was sent. -/
  | sentAll (s : State)
  /-- The send of this buffer answered TransportError; later ones are not attempted (R103). -/
  | failed (i : Fin 7) (s : State)
  /-- The send of this buffer is never answered (R103, R151). -/
  | waiting (i : Fin 7) (s : State)
deriving DecidableEq, Repr

/-- The state the sends leave, however they end. -/
def FlushEnd.state : FlushEnd → State
  | .sentAll s => s
  | .failed _ s => s
  | .waiting _ s => s

/-- The loop of R103 over buffer indices: each one whose bit of the snapshot is set is sent whole, until a send fails. -/
def flushLoop (snap : BitVec 7) : List (Fin 7) → State → FlushEnd
  | [], s => .sentAll s
  | i :: rest, s =>
    if snap.getLsbD i then
      match s.nextSend with
      | some .ok => flushLoop snap rest (s.logSend i .ok)
      | some .transportError => .failed i (s.logSend i .transportError)
      | none => .waiting i { s with sends := s.sends.tail }
    else flushLoop snap rest s

/-- The buffer indices, ascending (R103). -/
def bufferIndices : List (Fin 7) := [0, 1, 2, 3, 4, 5, 6]

/-- The dirty mask after a failed FLUSH: cleared, or kept as at entry under FLUSH_KEEP_DIRTY_ON_ERROR (R104). -/
def State.dirtyAfterFailure (s : State) : State :=
  if s.cfg.data.policy.flushKeepDirtyOnError then s else s.setDirty 0

/-- FLUSH (R103, R104). A send that is never answered leaves CP inside the command (R151, log 8). -/
def execFlush (s : State) : Outcome :=
  whenOpen s fun s =>
    match flushLoop s.dirty bufferIndices s with
    | .sentAll t => returnOk .none (t.setDirty 0)
    | .failed i t => raise .transportError (BitVec.ofNat 8 i) t.dirtyAfterFailure
    | .waiting i t => .next { t with cpWait := some i }

/-- The last record of a log for a buffer. -/
def lastRecord (log : List SendRecord) (i : Fin 7) : Option SendRecord := (log.filter fun r => r.index = i).getLast?

/-- What the device is known to hold for a buffer: the bytes of the last send if it answered Ok; none when it is unknown, that
is, any value (R28, log 17). -/
def State.deviceImage (s : State) (i : Fin 7) : Option Bytes8 :=
  match lastRecord s.sendlog i with
  | some r => if r.outcome = .ok then some r.bytes else none
  | none => none

end Sys2Proof.Machine
end

