-- ==== Sys2Proof/Machine/Font.lean ====
section
/-! DEFINITION. The font lookups and their commands FONTD and FONTC (41_font.md). -/

namespace Sys2Proof.Machine

/-- FONT_DIGIT_TAB[h] (R36). -/
def fontDigitEntry (c : ConfigData) (h : Nat) : Byte := c.fontDigit[h]?.getD 0

/-- font_digit(c) (R89). -/
def fontDigit (c : ConfigData) (ch : Byte) : Byte :=
  if 0x30#8 ≤ ch ∧ ch ≤ 0x39#8 then fontDigitEntry c (ch.toNat - 0x30)
  else if 0x61#8 ≤ ch ∧ ch ≤ 0x66#8 then fontDigitEntry c (ch.toNat - 0x61 + 10)
  else if 0x41#8 ≤ ch ∧ ch ≤ 0x46#8 then fontDigitEntry c (ch.toNat - 0x41 + 10)
  else 0

/-- FONT_CHAR_TAB[c], where c is in FONT_CHAR_DEFINED (R37). -/
def fontCharEntry (c : ConfigData) (ch : Byte) : Option Half := c.fontChar.lookup ch

/-- font_char(c) (R91). -/
def fontChar (c : ConfigData) (ch : Byte) : Half :=
  if ch = 0xFF then 0xFFFF
  else
    match fontCharEntry c ch with
    | some glyph => glyph
    | none => 0

/-- FONTD c (R90): allowed in both phases. -/
def execFontd (ch : Byte) (s : State) : Outcome := returnOk (.byte (fontDigit s.cfg.data ch)) s

/-- FONTC c (R92): allowed in both phases. -/
def execFontc (ch : Byte) (s : State) : Outcome := returnOk (.half (fontChar s.cfg.data ch)) s

end Sys2Proof.Machine
end

