-- ==== Sys2Proof/Machine/Keypad.lean ====
section
/-! DEFINITION. The keypad monitor's step and the consumer command GETKEY (44_keypad.md). -/

namespace Sys2Proof.Machine

/-- The first three bytes of a report are KEY_SIG (R80, R106). -/
def isKeyReport (c : ConfigData) (x : Bytes8) : Bool :=
  x[0] == c.keySig[0] && x[1] == c.keySig[1] && x[2] == c.keySig[2]

/-- The raw key code of a key report (R80, R111). -/
def rawKeyCode (x : Bytes8) : Byte := x[3]

/-- What KM does with an answer of the Transport (R106): a timeout (R107), a read failure (R108, R109), a report (R110, R111). -/
def State.takeReport (s : State) : ReportOutcome → State
  | .timeout => { s with errcnt := 0 }
  | .transportError =>
    if s.cfg.data.policy.readErrLimit ≤ s.errcnt + 1 then
      { s with errcnt := s.errcnt + 1, mon := .terminated, chan := .empty }
    else { s with errcnt := s.errcnt + 1 }
  | .report x =>
    if isKeyReport s.cfg.data x then { s with errcnt := 0, chan := .full (rawKeyCode x) }
    else { s with errcnt := 0 }

/-- KM_STEP (R106): enabled iff KM is running and not waiting for ever in an earlier read (R137, log 9); else KM has no step and
nothing changes. -/
def kmStep (s : State) : State :=
  if s.mon = .running ∧ s.kmWait = false then
    match s.nextReport with
    | some r => State.takeReport { s with reports := s.reports.tail } r
    | none => { s with reports := s.reports.tail, kmWait := true }
  else s

/-- GETKEY t (R113): the timeout is not read. A Stopped monitor in an open session, which no run reaches, answers Idle (log 15). -/
def execGetkey (_timeout : Half) (s : State) : Outcome :=
  whenOpen s fun s =>
    match s.chan with
    | .full k => returnOk (.byte k) { s with chan := .empty }
    | .empty =>
      match s.mon with
      | .terminated => raise .monitorTerminated s.cfg.data.keyErr s
      | .running => raise .idle s.cfg.data.keyIdle s
      | .stopped => raise .idle s.cfg.data.keyIdle s

/-- A decoded key event (R114). -/
structure KeyEvent where
  pressed : Bool
  keyId : BitVec 5
deriving DecidableEq, Repr

/-- key_decode(k) (R79, R114). -/
def keyDecode (k : Byte) : KeyEvent := { pressed := k.getLsbD 5, keyId := k.extractLsb' 0 5 }

end Sys2Proof.Machine
end

