-- ==== Sys2Proof/Machine/Text.lean ====
section
/-! DEFINITION. The persisted-state text: rendering (R82), and splitting and reading tokens (R83). -/

namespace Sys2Proof.Machine

/-- hexdigit: the lower-case character of a value 0..15 (R82). -/
def hexDigit (v : Nat) : Byte := if v < 10 then BitVec.ofNat 8 (0x30 + v) else BitVec.ofNat 8 (0x61 + (v - 10))

/-- tok(v): 0x and two hex digits (R82). -/
def renderToken (v : Byte) : List Byte := [0x30, 0x78, hexDigit (v.toNat / 16), hexDigit (v.toNat % 16)]

/-- The tokens of one line, one space between two, LF after the last (R82). -/
def renderLine : List Byte → List Byte
  | [] => [0x0A]
  | [v] => renderToken v ++ [0x0A]
  | v :: w :: vs => renderToken v ++ 0x20 :: renderLine (w :: vs)

/-- The whole text, a line for each buffer (R82). -/
def renderText (lines : List (List Byte)) : List Byte := lines.flatMap renderLine

/-- Whitespace: 0x20, 0x09 to 0x0D (R83). -/
def isSpace (b : Byte) : Bool := b == 0x20 || (0x09#8 ≤ b && b ≤ 0x0D#8)

/-- The tokens of a text, with the bytes of the token being read in reverse (R83). -/
def tokensFrom : List Byte → List Byte → List (List Byte)
  | [], cur => if cur.isEmpty then [] else [cur.reverse]
  | b :: bs, cur =>
    if isSpace b then (if cur.isEmpty then tokensFrom bs [] else cur.reverse :: tokensFrom bs [])
    else tokensFrom bs (b :: cur)

/-- tokenize(text): split at runs of whitespace (R83). -/
def tokenize (text : List Byte) : List (List Byte) := tokensFrom text []

/-- The value of a hex digit 0-9, a-f, A-F (R83). -/
def hexValue (b : Byte) : Option Nat :=
  if 0x30#8 ≤ b ∧ b ≤ 0x39#8 then some (b.toNat - 0x30)
  else if 0x61#8 ≤ b ∧ b ≤ 0x66#8 then some (b.toNat - 0x61 + 10)
  else if 0x41#8 ≤ b ∧ b ≤ 0x46#8 then some (b.toNat - 0x41 + 10)
  else none

/-- The value of a token, none when it is not valid: exactly '0', then 'x' or 'X', then two hex digits (R83). -/
def tokenValue : List Byte → Option Byte
  | [z, x, h, l] =>
    if z = 0x30 ∧ (x = 0x78 ∨ x = 0x58) then
      match hexValue h, hexValue l with
      | some hi, some lo => some (BitVec.ofNat 8 (16 * hi + lo))
      | _, _ => none
    else none
  | _ => none

end Sys2Proof.Machine
end

