-- ==== Sys2Proof/Machine/Session.lean ====
section
/-! DEFINITION. The session commands OPEN and CLOSE and the persisted state, SAVE and LOAD (45_session.md). -/

namespace Sys2Proof.Machine

/-- The session OPEN creates (R116). The new reader has made no read yet, so it is not waiting in one (log 9). -/
def State.opened (s : State) : State :=
  { s with
    buf := Memory.ofTemplate s.cfg.data.template
    dirty := 0
    chan := .empty
    errcnt := 0
    mon := .running
    kmWait := false
    phase := .opened }

/-- OPEN (R116). -/
def execOpen (s : State) : Outcome := whenClosed s fun s => returnOk .none s.opened

/-- What CLOSE leaves (R117): the buffers and the dirty mask are absent (log 4), and a read in flight has no effect. -/
def State.shut (s : State) : State :=
  { s with
    mon := .stopped
    chan := .empty
    errcnt := 0
    kmWait := false
    buf := []
    dirty := 0
    phase := .closed }

/-- CLOSE (R117). -/
def execClose (s : State) : Outcome := whenOpen s fun s => returnOk .none s.shut

/-- The text SAVE renders: all 56 bytes, headers included (R118, R82). -/
def State.savedText (s : State) : List Byte :=
  renderText ((List.finRange 7).map fun i => (s.buffer i).toList)

/-- SAVE (R118). -/
def execSave (s : State) : Outcome := whenOpen s fun s => returnOk (.text s.savedText) s

/-- One token's byte stored at its place j: a payload byte is written and its buffer marked dirty, a header token is not stored
(R119, R120). -/
def State.loadByte (s : State) (j : Nat) (v : Byte) : State :=
  if 3 ≤ j % 8 then (s.setByte j v).markDirty (j / 8) else s

/-- The loop of LOAD_STATE (R119) over n more tokens from place j: the state it leaves, and the place of the first bad or missing
token if there is one. -/
def loadLoop : Nat → Nat → List (List Byte) → State → State × Option Nat
  | 0, _, _, s => (s, none)
  | _ + 1, j, [], s => (s, some j)
  | n + 1, j, t :: ts, s =>
    match tokenValue t with
    | some v => loadLoop n (j + 1) ts (s.loadByte j v)
    | none => (s, some j)

/-- The place of the first bad or missing token among n more from place j (R121). -/
def firstBad : Nat → Nat → List (List Byte) → Option Nat
  | 0, _, _ => none
  | _ + 1, j, [] => some j
  | n + 1, j, t :: ts =>
    match tokenValue t with
    | some _ => firstBad n (j + 1) ts
    | none => some j

/-- STATE_TOKENS (R6). -/
def stateTokens : Nat := 56

/-- LOAD_STATE, the default: progressive (R119). -/
def loadProgressive (text : List Byte) (s : State) : Outcome :=
  match loadLoop stateTokens 0 (tokenize text) s with
  | (t, none) => returnOk .none t
  | (t, some j) => raise .invalidFormat (BitVec.ofNat 8 j) t

/-- LOAD_STATE_ATOMIC (R121): every token is checked before the first byte is written. -/
def loadAtomic (text : List Byte) (s : State) : Outcome :=
  match firstBad stateTokens 0 (tokenize text) with
  | none => returnOk .none ((loadLoop stateTokens 0 (tokenize text) s).1.setDirty allDirty)
  | some j => raise .invalidFormat (BitVec.ofNat 8 j) s

/-- LOAD "text" (R119, R121). -/
def execLoad (text : List Byte) (s : State) : Outcome :=
  whenOpen s fun s => if s.cfg.data.policy.loadAtomic then loadAtomic text s else loadProgressive text s

end Sys2Proof.Machine
end

