-- ==== Sys2Proof/Machine/Operands.lean ====
section
/-! DEFINITION. Operand translation: the table lookups that turn logical addresses into SegmentRefs (R32 to R35, R55), the
coupling of the middle stroke (R97), and the lists of bit writes the setters make (R94, R96, R98). -/

namespace Sys2Proof.Machine

/-- One call of SET_BIT to make: the SegmentRef the tables give, if they give one, and the value of the bit. -/
abbrev BitWrite := Option SegRef × Bool

/-- SYMTAB[s] (R32, R55). -/
def symRef (c : ConfigData) (sym : Nat) : Option SegRef := c.symtab[sym]?

/-- DIGLAYOUT[p][k] (R33, R55). -/
def digRef (c : ConfigData) (p k : Nat) : Option SegRef := c.diglayout[p]?.bind fun row => row[k]?

/-- INNER_row[f] (R35). -/
def innerRef (c : ConfigData) (row : Row) (f : Nat) : Option InnerRef :=
  match row with
  | .top => c.topInner[f]?
  | .bot => c.botInner[f]?

/-- OUTER_row[p][g] (R34). -/
def outerRef (c : ConfigData) (row : Row) (p g : Nat) : Option OuterRef :=
  match row with
  | .top => c.topOuter[p]?.bind fun gs => gs[g]?
  | .bot => c.botOuter[p]?.bind fun gs => gs[g]?

/-- The SegmentRef of a flag at a character position: (b, base + d) with (g, d) = INNER_row[f] and (b, base) = OUTER_row[p][g]
(R55, R98). -/
def charRef (c : ConfigData) (row : Row) (p f : Nat) : Option SegRef :=
  (innerRef c row f).bind fun inner =>
    (outerRef c row p inner.group).map fun outer => { id := outer.id, off := outer.base + inner.delta }

/-- FLAG_M (R78). -/
def flagM : Half := 0x0040

/-- FLAG_LC (R78). -/
def flagLC : Half := 0x0400

/-- FLAG_RC (R78). -/
def flagRC : Half := 0x0800

/-- couple(m): the middle stroke forces both center joints (R97). -/
def couple (m : Half) : Half := if m &&& flagM ≠ 0 then m ||| flagLC ||| flagRC else m

/-- The bar-only digit positions (R6, R96). -/
def isBar (p : Nat) : Bool := p == 0 || p == 3

/-- The SET_BIT calls of SET_TOP_DIGIT(p, m) at a position in range (R96): the bar's one from m[7], else ids 0..6 ascending. -/
def digitWrites (c : ConfigData) (p : Nat) (m : Byte) : List BitWrite :=
  if isBar p then [(digRef c p 7, m.getLsbD 7)]
  else (List.range 7).map fun k => (digRef c p k, m.getLsbD k)

/-- The flags ResolveChar resolves, ascending (R94, R98). -/
def charFlagBits (c : ConfigData) : List Nat := (List.range 16).filter fun f => c.charFlags.getLsbD f

/-- The SET_BIT calls of ResolveChar(row, p, m) (R98). -/
def charWrites (c : ConfigData) (row : Row) (p : Nat) (m : Half) : List BitWrite :=
  (charFlagBits c).map fun f => (charRef c row p f, (couple m).getLsbD f)

end Sys2Proof.Machine
end

