-- ==== Sys2Proof/Machine/Setters.lean ====
section
/-! DEFINITION. SET_BIT and the setter commands SYM, TDIG, TCHR, BCHR, and CLEAR (42_setters.md). -/

namespace Sys2Proof.Machine

/-- A byte with one bit set or cleared (R93). -/
def putBit (v : Byte) (bit : Nat) (on : Bool) : Byte := if on then v ||| (1#8 <<< bit) else v &&& ~~~(1#8 <<< bit)

/-- The linear address of the byte a SegmentRef names: byte 3 + (o div 8) of the buffer with index b - 1 (R18, R46). -/
def segAddress (r : SegRef) : Nat := 8 * (r.id.toNat - 1) + (3 + r.off / 8)

/-- The effect of SET_BIT on a valid SegmentRef: the bit is written and its buffer marked dirty, whatever the bit was (R93). -/
def State.writeBit (s : State) (r : SegRef) (on : Bool) : State :=
  (s.setByte (segAddress r) (putBit (s.byteAt (segAddress r)) (r.off % 8) on)).markDirty (r.id.toNat - 1)

/-- The SET_BIT calls of one command, in order (R93, R94), and its end: OK after the last one; InvalidCode at the first id
outside 1..7, with the earlier writes kept (R10). -/
def setBits : List BitWrite → State → Outcome
  | [], s => returnOk .none s
  | (none, _) :: _, _ => .fault .tableEntry
  | (some r, on) :: rest, s =>
    if 1 ≤ r.id.toNat ∧ r.id.toNat ≤ 7 then
      if r.off < 40 then setBits rest (s.writeBit r on) else .fault .segmentOffset
    else raise .invalidCode r.id s

/-- SYM s, on (R95). -/
def execSym (sym : Byte) (on : Bool) (s : State) : Outcome :=
  whenOpen s fun s =>
    if s.cfg.data.nsym ≤ sym.toNat then raise .invalidSymbol sym s
    else setBits [(symRef s.cfg.data sym.toNat, on)] s

/-- TDIG p, m8 (R96). -/
def execTdig (pos : Byte) (mask : Byte) (s : State) : Outcome :=
  whenOpen s fun s =>
    if 10 < pos.toNat then raise .invalidPosition pos s
    else setBits (digitWrites s.cfg.data pos.toNat mask) s

/-- TCHR p, m16 (R99). -/
def execTchr (pos : Byte) (mask : Half) (s : State) : Outcome :=
  whenOpen s fun s =>
    if 7 < pos.toNat then raise .invalidPosition pos s
    else setBits (charWrites s.cfg.data .top pos.toNat mask) s

/-- BCHR p, m16 (R100). -/
def execBchr (pos : Byte) (mask : Half) (s : State) : Outcome :=
  whenOpen s fun s =>
    if 3 < pos.toNat then raise .invalidPosition pos s
    else setBits (charWrites s.cfg.data .bot pos.toNat mask) s

/-- Every payload byte zero, headers untouched, every buffer dirty (R101). -/
def State.cleared (s : State) : State := { s with buf := s.buf.zeroPayload, dirty := allDirty }

/-- CLEAR (R101). -/
def execClear (s : State) : Outcome := whenOpen s fun s => returnOk .none s.cleared

end Sys2Proof.Machine
end

