-- ==== Sys2Proof/Machine/Dispatch.lean ====
section
/-! DEFINITION. One arm per command: each calls its meaning. -/

namespace Sys2Proof.Machine

/-- What a command does (R67). -/
def exec (i : Instr) (s : State) : Host.Outcome State Fault Refusal :=
  match i with
  | .openSession => Sys2Proof.Machine.execOpen s
  | .closeSession => Sys2Proof.Machine.execClose s
  | .sym sym on => Sys2Proof.Machine.execSym sym on s
  | .tdig pos mask => Sys2Proof.Machine.execTdig pos mask s
  | .tchr pos mask => Sys2Proof.Machine.execTchr pos mask s
  | .bchr pos mask => Sys2Proof.Machine.execBchr pos mask s
  | .clear => Sys2Proof.Machine.execClear s
  | .flush => Sys2Proof.Machine.execFlush s
  | .save => Sys2Proof.Machine.execSave s
  | .load text => Sys2Proof.Machine.execLoad text s
  | .getkey timeout => Sys2Proof.Machine.execGetkey timeout s
  | .fontd char => Sys2Proof.Machine.execFontd char s
  | .fontc char => Sys2Proof.Machine.execFontc char s

end Sys2Proof.Machine
end

