-- ==== Sys2Proof/Machine/Agents.lean ====
section
/-! DEFINITION. What each agent does when the schedule names it (R13, R57). -/

namespace Sys2Proof.Machine

/-- A step of CP: it takes the host's next command and runs it whole (R13, R52). CP has no step while it waits for ever in a
Send (R151) or while the host has issued nothing (R44): then nothing changes. -/
def cpStep (s : State) : Outcome :=
  match s.cpWait, s.port with
  | some _, _ => .next s
  | none, [] => .next s
  | none, c :: rest =>
    match decodeCommand c with
    | .ok i => exec i { s with port := rest }
    | .error why => illegalWord why { s with port := rest }

/-- The move of one agent. -/
def stepAs (a : Agent) (s : State) : Outcome :=
  match a with
  | .cp => cpStep s
  | .km => .next (kmStep s)

end Sys2Proof.Machine
end

