-- ==== Sys2Proof/Machine/Step.lean ====
section
/-! DEFINITION. One step: the scheduled agent moves (R13, R57). -/

namespace Sys2Proof.Machine

/-- One step of the block: the agent the schedule names moves (log 5). -/
def step (s : State) : Host.Outcome State Fault Refusal := stepAs s.nextAgent s.advance

/-- s with a command word put first on the command port and CP scheduled next, not waiting: the very next step runs it (log 6). -/
def State.withFetchWord (s : State) (nbits w : Nat) : State :=
  { s with
    port := { word := BitVec.ofNat 32 (w % 2 ^ nbits), text := [] } :: s.port
    sched := .cp :: s.sched
    cpWait := none }

end Sys2Proof.Machine
end

