-- ==== Sys2Proof/Machine/Assembler.lean ====
section
/-! DEFINITION. The assembler of the spec's test programs: reading a line (R84 to R86), assembling it with the pseudo-instructions
(R85, R87), and listing and disassembly (R88). Not part of a step. Choices the rules leave open: log 18. -/

namespace Sys2Proof.Machine

/-! ### Assembling (R85, R87) -/

/-- The commands TCHRC p, s[0]; TCHRC p+1, s[1]; ... of a string, by the setter of its row (R87). -/
def stringCommands (c : ConfigData) (setter : Byte → Half → Instr) : Nat → List Byte → List Instr
  | _, [] => []
  | p, ch :: t => setter (BitVec.ofNat 8 p) (fontChar c ch) :: stringCommands c setter (p + 1) t

/-- LAMPCHR: every character position all on (R87). -/
def lampCommands : List Instr :=
  ((List.range 8).map fun p => Instr.tchr (BitVec.ofNat 8 p) 0xFFFF) ++
    (List.range 4).map fun p => Instr.bchr (BitVec.ofNat 8 p) 0xFFFF

/-- The commands a line stands for, its operands taken at the width of their fields (R85, R87). -/
def lineCommands (c : ConfigData) : AsmLine → List Instr
  | .openSession => [.openSession]
  | .closeSession => [.closeSession]
  | .sym s on => [.sym (BitVec.ofNat 8 s) (on == 1)]
  | .tdig p m => [.tdig (BitVec.ofNat 8 p) (BitVec.ofNat 8 m)]
  | .tchr p m => [.tchr (BitVec.ofNat 8 p) (BitVec.ofNat 16 m)]
  | .bchr p m => [.bchr (BitVec.ofNat 8 p) (BitVec.ofNat 16 m)]
  | .clear => [.clear]
  | .flush => [.flush]
  | .save => [.save]
  | .load t => [.load t]
  | .getkey t => [.getkey (BitVec.ofNat 16 t)]
  | .fontd ch => [.fontd (BitVec.ofNat 8 ch)]
  | .fontc ch => [.fontc (BitVec.ofNat 8 ch)]
  | .symon s => [.sym (BitVec.ofNat 8 s) true]
  | .symoff s => [.sym (BitVec.ofNat 8 s) false]
  | .tdigc p ch => [.tdig (BitVec.ofNat 8 p) (fontDigit c ch)]
  | .tdigblank p => [.tdig (BitVec.ofNat 8 p) 0]
  | .tchrc p ch => [.tchr (BitVec.ofNat 8 p) (fontChar c ch)]
  | .bchrc p ch => [.bchr (BitVec.ofNat 8 p) (fontChar c ch)]
  | .tstr p t => stringCommands c Instr.tchr p t
  | .bstr p t => stringCommands c Instr.bchr p t
  | .lampchr => lampCommands

/-- Assembling one line: rejected when an operand does not fit its field or a string its row (R85, R87). -/
def assemble (c : ConfigData) (l : AsmLine) : Option (List Command) :=
  if l.wf then some ((lineCommands c l).map encode) else none

/-! ### Reading a line (R84, R86) -/

/-- A token of an assembler line. -/
inductive AsmToken where
  | comma
  | word (w : List Char)
  | chr (b : Byte)
  | str (t : List Byte)
deriving DecidableEq, Repr

/-- What the lexer is in the middle of; accumulated text is in reverse. -/
inductive LexMode where
  | word (w : List Char)
  | str (t : List Byte)
  | escape (t : List Byte)
  | chrOpen
  | chrClose (b : Byte)
deriving DecidableEq, Repr

/-- The ASCII code of a character (R8, R86). -/
def asciiByte (c : Char) : Option Byte := if c.toNat < 128 then some (BitVec.ofNat 8 c.toNat) else none

/-- A string escape: \n, \t, backslash and double quote (R86). -/
def escapeByte (c : Char) : Option Byte :=
  if c = 'n' then some 0x0A
  else if c = 't' then some 0x09
  else if c = '\\' then some 0x5C
  else if c = '"' then some 0x22
  else none

/-- A finished word, if there is one, put before the tokens after it. -/
def endWord (w : List Char) (rest : List AsmToken) : List AsmToken :=
  if w.isEmpty then rest else .word w.reverse :: rest

/-- Space, tab, CR and LF separate words. -/
def isBlank (c : Char) : Bool := c = ' ' || c = '\t' || c = '\r' || c = '\n'

/-- The tokens of a line; a semicolon outside a literal starts a comment (R84). DESIGN CHOICE (log 18): a quote directly after a
word, with no blank or comma between, rejects the line. -/
def lex : List Char → LexMode → Option (List AsmToken)
  | [], .word w => some (endWord w [])
  | [], .str _ => none
  | [], .escape _ => none
  | [], .chrOpen => none
  | [], .chrClose _ => none
  | c :: cs, .word w =>
    if c = ';' then some (endWord w [])
    else if isBlank c then (lex cs (.word [])).map (endWord w)
    else if c = ',' then (lex cs (.word [])).map fun ts => endWord w (.comma :: ts)
    else if c = '"' then (if w.isEmpty then lex cs (.str []) else none)
    else if c = '\'' then (if w.isEmpty then lex cs .chrOpen else none)
    else lex cs (.word (c :: w))
  | c :: cs, .str t =>
    if c = '"' then (lex cs (.word [])).map (.str t.reverse :: ·)
    else if c = '\\' then lex cs (.escape t)
    else (asciiByte c).bind fun b => lex cs (.str (b :: t))
  | c :: cs, .escape t => (escapeByte c).bind fun b => lex cs (.str (b :: t))
  | c :: cs, .chrOpen => (asciiByte c).bind fun b => lex cs (.chrClose b)
  | c :: cs, .chrClose b => if c = '\'' then (lex cs (.word [])).map (.chr b :: ·) else none

/-- The value of a digit in a base up to 16. -/
def digitValue (base : Nat) (c : Char) : Option Nat :=
  let v :=
    if '0' ≤ c ∧ c ≤ '9' then some (c.toNat - '0'.toNat)
    else if 'a' ≤ c ∧ c ≤ 'f' then some (c.toNat - 'a'.toNat + 10)
    else if 'A' ≤ c ∧ c ≤ 'F' then some (c.toNat - 'A'.toNat + 10)
    else none
  v.filter fun d => decide (d < base)

/-- The number written by digits, after those already read. -/
def digitsValue (base : Nat) : Nat → List Char → Option Nat
  | acc, [] => some acc
  | acc, c :: cs => (digitValue base c).bind fun d => digitsValue base (base * acc + d) cs

/-- A decimal or 0x-prefixed hexadecimal number (R86). -/
def numberValue (w : List Char) : Option Nat :=
  match w with
  | '0' :: 'x' :: d :: ds => digitsValue 16 0 (d :: ds)
  | '0' :: 'X' :: d :: ds => digitsValue 16 0 (d :: ds)
  | d :: ds => digitsValue 10 0 (d :: ds)
  | [] => none

/-- A numeric operand: a number, or a character for its code (R86). -/
def numericOperand : AsmToken → Option Nat
  | .word w => numberValue w
  | .chr b => some b.toNat
  | .comma => none
  | .str _ => none

/-- The operand `on`: a number, or one of the words on and off (R86). -/
def onOperand : AsmToken → Option Nat
  | .word w => if w = ['o', 'n'] then some 1 else if w = ['o', 'f', 'f'] then some 0 else numberValue w
  | .chr b => some b.toNat
  | .comma => none
  | .str _ => none

/-- A character operand. -/
def charOperand : AsmToken → Option Byte
  | .chr b => some b
  | .word _ => none
  | .comma => none
  | .str _ => none

/-- A string operand. -/
def stringOperand : AsmToken → Option (List Byte)
  | .str t => some t
  | .word _ => none
  | .comma => none
  | .chr _ => none

/-- Operands separated by commas (R84). -/
def operandList : List AsmToken → Option (List AsmToken)
  | [] => some []
  | [t] => if t = .comma then none else some [t]
  | t :: c :: rest => if t = .comma ∨ c ≠ .comma ∨ rest = [] then none else (operandList rest).map (t :: ·)

/-- The mnemonics of R85 and R87. -/
inductive Mnemonic where
  | open_ | close_ | sym | tdig | tchr | bchr | clear | flush | save | load | getkey | fontd | fontc
  | symon | symoff | tdigc | tdigblank | tchrc | bchrc | tstr | bstr | lampchr
deriving DecidableEq, Repr

/-- Their spelling in capitals; mnemonics are case-insensitive (R84). -/
def mnemonicTable : List (List Char × Mnemonic) :=
  [(['O', 'P', 'E', 'N'], .open_), (['C', 'L', 'O', 'S', 'E'], .close_), (['S', 'Y', 'M'], .sym),
   (['T', 'D', 'I', 'G'], .tdig), (['T', 'C', 'H', 'R'], .tchr), (['B', 'C', 'H', 'R'], .bchr),
   (['C', 'L', 'E', 'A', 'R'], .clear), (['F', 'L', 'U', 'S', 'H'], .flush), (['S', 'A', 'V', 'E'], .save),
   (['L', 'O', 'A', 'D'], .load), (['G', 'E', 'T', 'K', 'E', 'Y'], .getkey), (['F', 'O', 'N', 'T', 'D'], .fontd),
   (['F', 'O', 'N', 'T', 'C'], .fontc)] ++
  [(['S', 'Y', 'M', 'O', 'N'], .symon), (['S', 'Y', 'M', 'O', 'F', 'F'], .symoff), (['T', 'D', 'I', 'G', 'C'], .tdigc),
   (['T', 'D', 'I', 'G', 'B', 'L', 'A', 'N', 'K'], .tdigblank), (['T', 'C', 'H', 'R', 'C'], .tchrc),
   (['B', 'C', 'H', 'R', 'C'], .bchrc), (['T', 'S', 'T', 'R'], .tstr), (['B', 'S', 'T', 'R'], .bstr),
   (['L', 'A', 'M', 'P', 'C', 'H', 'R'], .lampchr)]

/-- The line of a mnemonic and its operands; none when their number or kind is wrong (R85, R87). -/
def lineOf : Mnemonic → List AsmToken → Option AsmLine
  | .open_, [] => some .openSession
  | .close_, [] => some .closeSession
  | .sym, [a, b] => (numericOperand a).bind fun s => (onOperand b).map fun on => .sym s on
  | .tdig, [a, b] => (numericOperand a).bind fun p => (numericOperand b).map fun m => .tdig p m
  | .tchr, [a, b] => (numericOperand a).bind fun p => (numericOperand b).map fun m => .tchr p m
  | .bchr, [a, b] => (numericOperand a).bind fun p => (numericOperand b).map fun m => .bchr p m
  | .clear, [] => some .clear
  | .flush, [] => some .flush
  | .save, [] => some .save
  | .load, [a] => (stringOperand a).map .load
  | .getkey, [a] => (numericOperand a).map .getkey
  | .fontd, [a] => (numericOperand a).map .fontd
  | .fontc, [a] => (numericOperand a).map .fontc
  | .symon, [a] => (numericOperand a).map .symon
  | .symoff, [a] => (numericOperand a).map .symoff
  | .tdigc, [a, b] => (numericOperand a).bind fun p => (charOperand b).map fun c => .tdigc p c
  | .tdigblank, [a] => (numericOperand a).map .tdigblank
  | .tchrc, [a, b] => (numericOperand a).bind fun p => (charOperand b).map fun c => .tchrc p c
  | .bchrc, [a, b] => (numericOperand a).bind fun p => (charOperand b).map fun c => .bchrc p c
  | .tstr, [a, b] => (numericOperand a).bind fun p => (stringOperand b).map fun t => .tstr p t
  | .bstr, [a, b] => (numericOperand a).bind fun p => (stringOperand b).map fun t => .bstr p t
  | .lampchr, [] => some .lampchr
  | _, _ => none

/-- What one source line is. -/
inductive ParsedLine where
  /-- Blank, or a comment only: ignored (R84). -/
  | blank
  | line (l : AsmLine)
  | rejected
deriving DecidableEq, Repr

/-- Reading one source line (R84 to R86). -/
def parseLine (src : List Char) : ParsedLine :=
  match lex src (.word []) with
  | some [] => .blank
  | some (.word w :: ts) =>
    match mnemonicTable.lookup (w.map Char.toUpper), operandList ts with
    | some m, some ops =>
      match lineOf m ops with
      | some l => .line l
      | none => .rejected
    | _, _ => .rejected
  | some _ => .rejected
  | none => .rejected

/-- Assembling a program, a list of lines: the commands of its lines in order, none when a line is rejected (R84). -/
def assembleProgram (c : ConfigData) : List (List Char) → Option (List Command)
  | [] => some []
  | src :: rest =>
    match parseLine src with
    | .blank => assembleProgram c rest
    | .line l => (assemble c l).bind fun cs => (assembleProgram c rest).map (cs ++ ·)
    | .rejected => none

/-! ### Listing and disassembly (R88) -/

/-- An upper-case hex digit. -/
def hexChar (v : Nat) : Char := if v < 10 then Char.ofNat (0x30 + v) else Char.ofNat (0x41 + (v - 10))

/-- The lowest n hex digits of a value. -/
def hexChars : Nat → Nat → List Char
  | 0, _ => []
  | n + 1, v => hexChars n (v / 16) ++ [hexChar (v % 16)]

/-- A number printed as 0x and n hex digits. -/
def hexLiteral (n v : Nat) : List Char := '0' :: 'x' :: hexChars n v

/-- A byte of a string literal, escaped where R86 has an escape. -/
def stringChars (b : Byte) : List Char :=
  if b = 0x0A then ['\\', 'n']
  else if b = 0x09 then ['\\', 't']
  else if b = 0x5C then ['\\', '\\']
  else if b = 0x22 then ['\\', '"']
  else [Char.ofNat b.toNat]

/-- A command printed with the syntax of R85. -/
def printInstr : Instr → List Char
  | .openSession => ['O', 'P', 'E', 'N']
  | .closeSession => ['C', 'L', 'O', 'S', 'E']
  | .sym s on => ['S', 'Y', 'M', ' '] ++ hexLiteral 2 s.toNat ++ [',', ' ', if on then '1' else '0']
  | .tdig p m => ['T', 'D', 'I', 'G', ' '] ++ hexLiteral 2 p.toNat ++ [',', ' '] ++ hexLiteral 2 m.toNat
  | .tchr p m => ['T', 'C', 'H', 'R', ' '] ++ hexLiteral 2 p.toNat ++ [',', ' '] ++ hexLiteral 4 m.toNat
  | .bchr p m => ['B', 'C', 'H', 'R', ' '] ++ hexLiteral 2 p.toNat ++ [',', ' '] ++ hexLiteral 4 m.toNat
  | .clear => ['C', 'L', 'E', 'A', 'R']
  | .flush => ['F', 'L', 'U', 'S', 'H']
  | .save => ['S', 'A', 'V', 'E']
  | .load t => ['L', 'O', 'A', 'D', ' ', '"'] ++ t.flatMap stringChars ++ ['"']
  | .getkey t => ['G', 'E', 'T', 'K', 'E', 'Y', ' '] ++ hexLiteral 4 t.toNat
  | .fontd c => ['F', 'O', 'N', 'T', 'D', ' '] ++ hexLiteral 2 c.toNat
  | .fontc c => ['F', 'O', 'N', 'T', 'C', ' '] ++ hexLiteral 2 c.toNat

/-- Disassembly: the decoded command, or .word 0xXXXXXXXX ; illegal (R88). -/
def disassemble (c : Command) : List Char :=
  match decodeCommand c with
  | .ok i => printInstr i
  | .error _ =>
    ['.', 'w', 'o', 'r', 'd', ' '] ++ hexLiteral 8 c.word.toNat ++ [' ', ';', ' ', 'i', 'l', 'l', 'e', 'g', 'a', 'l']

/-- A listing line: the word in 8 hex digits, two spaces, the source line; for LOAD then a space and the payload's length in bytes
(R88). -/
def listingLine (c : Command) (src : List Char) : List Char :=
  let line := hexChars 8 c.word.toNat ++ [' ', ' '] ++ src
  match decodeCommand c with
  | .ok (.load t) => line ++ ' ' :: Nat.toDigits 10 t.length
  | .ok _ => line
  | .error _ => line

end Sys2Proof.Machine
end

