-- ==== Sys2Proof/Safety.lean ====
section
/-! DEFINITION. What claims are stated in: the payload bits, the invariants of the machine, the answers a FLUSH meets, and the
observation of a run (R44). -/

namespace Sys2Proof.Machine

/-! ### Reading the display state -/

/-- Payload bit (b, o) of the buffers, by buffer index i = b - 1: bit (o mod 8) of byte 3 + (o div 8) (R18). -/
def State.payloadBit (s : State) (i o : Nat) : Bool := (s.byteAt (8 * i + (3 + o / 8))).getLsbD (o % 8)

/-- The indices of the dirty buffers, ascending (R103, R105). -/
def dirtyIndices (d : BitVec 7) : List (Fin 7) := bufferIndices.filter fun i => d.getLsbD i

/-- The effect of SET_BITs on valid SegmentRefs, made in order (R93, R94). -/
def State.writeBits (s : State) (ws : List (SegRef × Bool)) : State := ws.foldl (fun s w => s.writeBit w.1 w.2) s

/-- The setter commands (42_setters.md). -/
def isSetter : Instr → Bool
  | .sym _ _ => true
  | .tdig _ _ => true
  | .tchr _ _ => true
  | .bchr _ _ => true
  | .openSession => false
  | .closeSession => false
  | .clear => false
  | .flush => false
  | .save => false
  | .load _ => false
  | .getkey _ => false
  | .fontd _ => false
  | .fontc _ => false

/-- The SET_BITs a setter makes when its operand is in range, computed by the lookups its meaning uses (R95, R96, R98). -/
def setterWrites (c : ConfigData) : Instr → List BitWrite
  | .sym sym on => [(symRef c sym.toNat, on)]
  | .tdig pos mask => digitWrites c pos.toNat mask
  | .tchr pos mask => charWrites c .top pos.toNat mask
  | .bchr pos mask => charWrites c .bot pos.toNat mask
  | .openSession => []
  | .closeSession => []
  | .clear => []
  | .flush => []
  | .save => []
  | .load _ => []
  | .getkey _ => []
  | .fontd _ => []
  | .fontc _ => []

/-- The commands that may execute while Closed (R125). -/
def runsClosed : Instr → Bool
  | .openSession => true
  | .fontd _ => true
  | .fontc _ => true
  | .closeSession => false
  | .sym _ _ => false
  | .tdig _ _ => false
  | .tchr _ _ => false
  | .bchr _ _ => false
  | .clear => false
  | .flush => false
  | .save => false
  | .load _ => false
  | .getkey _ => false

/-- The commands that read or write neither the monitor nor the channel (R57, R112): all but OPEN, CLOSE and GETKEY. -/
def leavesKeypad : Instr → Bool
  | .openSession => false
  | .closeSession => false
  | .getkey _ => false
  | .sym _ _ => true
  | .tdig _ _ => true
  | .tchr _ _ => true
  | .bchr _ _ => true
  | .clear => true
  | .flush => true
  | .save => true
  | .load _ => true
  | .fontd _ => true
  | .fontc _ => true

/-! ### The Transport's coming answers -/

/-- The answer the n-th coming `Send` gets, counted from 0: the state's own, or the free value past their end (log 7). -/
def State.answerAt (s : State) (n : Nat) : Option SendOutcome :=
  match s.sends[n]? with
  | some d => d
  | none => Config.freeSend (s.sendlog.length + n)

/-- The records of sends of these buffers with these outcomes, numbered from a given one (R27). -/
def sendRecords (s : State) : Nat → List (Fin 7 × SendOutcome) → List SendRecord
  | _, [] => []
  | n, (i, r) :: rest => { seq := n, index := i, bytes := s.buffer i, outcome := r } :: sendRecords s (n + 1) rest

/-- The state after the next sends of these buffers got these outcomes: as many answers used up, as many records logged. -/
def State.afterSends (s : State) (rs : List (Fin 7 × SendOutcome)) : State :=
  { s with
    sends := s.sends.drop rs.length
    sendlog := s.sendlog ++ sendRecords s s.sendlog.length rs }

/-! ### Loading a text -/

/-- The values of the tokens, at most n of them, before the first bad one (R83, R119). -/
def goodValues : Nat → List (List Byte) → List Byte
  | 0, _ => []
  | _ + 1, [] => []
  | n + 1, t :: ts =>
    match tokenValue t with
    | some v => v :: goodValues n ts
    | none => []

/-- The bytes LOAD gets from a text: the values of its tokens 0..55 up to the first bad or missing one (R119). -/
def loadValues (text : List Byte) : List Byte := goodValues stateTokens (tokenize text)

/-! ### Invariants -/

/-- The buffer memory is in its canonical form and inside the buffer space (R45, R46). -/
def BufferSpaceWf (s : State) : Prop := s.buf.wf ∧ ∀ c ∈ s.buf, c.1 < bufferSpace

/-- While a session is open the header bytes are the template's (R17). -/
def HeadersFixed (s : State) : Prop :=
  s.phase = .opened → ∀ (i : Fin 7) (k : Fin 8), k.val < 3 → s.bufByte i k = s.cfg.data.template[i][k]

/-- The monitor exists exactly while a session is open, and a closed session has no event and no failure count (R22, R42). -/
def MonitorMatchesPhase (s : State) : Prop :=
  (s.phase = .closed → s.mon = .stopped ∧ s.chan = .empty ∧ s.errcnt = 0) ∧ (s.phase = .opened → s.mon ≠ .stopped)

/-- A terminated monitor has no pending event (R109). -/
def TerminatedIsEmpty (s : State) : Prop := s.mon = .terminated → s.chan = .empty

/-- A running monitor has failed fewer times in a row than the limit (R108). -/
def FailuresBelowLimit (s : State) : Prop := s.mon = .running → s.errcnt < s.cfg.data.policy.readErrLimit

/-- The send log is numbered from 0 in its own order (R27, log 11). -/
def LogNumbered (s : State) : Prop := ∀ n (r : SendRecord), s.sendlog[n]? = some r → r.seq = n

/-- CP waits inside a FLUSH only while a session is open (R151). -/
def WaitsOnlyOpen (s : State) : Prop := s.cpWait ≠ none → s.phase = .opened

/-- While Closed the absent buffers and dirty mask are held as empty and 0 (R42, log 4). -/
def AbsentIsEmpty (s : State) : Prop := s.phase = .closed → s.buf = [] ∧ s.dirty = 0

/-- The invariant of the machine: every state a run reaches has all of these. -/
structure State.Inv (s : State) : Prop where
  bufferSpace : BufferSpaceWf s
  headers : HeadersFixed s
  monitor : MonitorMatchesPhase s
  terminated : TerminatedIsEmpty s
  failures : FailuresBelowLimit s
  log : LogNumbered s
  waits : WaitsOnlyOpen s
  absent : AbsentIsEmpty s

/-! ### Runs (R44) -/

/-- What a run shows (R44): the responses in order, and the final phase, buffers, dirty mask, monitor, channel and send log. -/
structure Observation where
  responses : List Response
  phase : Phase
  buf : Memory
  dirty : BitVec 7
  mon : Monitor
  chan : Channel
  sendlog : List SendRecord
deriving DecidableEq, Repr

/-- The state after n steps and the responses given in them, oldest first: a step in which `cidx` advances gives one (R26, R30). -/
def runSteps : Nat → State → State × List Response
  | 0, s => (s, [])
  | n + 1, s =>
    match step s with
    | .next t => ((runSteps n t).1, (if t.cidx = s.cidx then [] else t.resp.toList) ++ (runSteps n t).2)
    | .fault _ => (s, [])
    | .refused _ => (s, [])

/-- The host has issued nothing more and CP has completed what it was given: the run may end here (R44). DESIGN CHOICE (log 19):
a run whose KM waits in a ReadReport that is never answered may end too; `kmWait` is not looked at. -/
def State.ended (s : State) : Bool := s.port.isEmpty && s.cpWait.isNone

/-- The observation of the run of n steps (R44). -/
def observe (n : Nat) (s : State) : Observation :=
  let r := runSteps n s
  { responses := r.2, phase := r.1.phase, buf := r.1.buf, dirty := r.1.dirty, mon := r.1.mon, chan := r.1.chan,
    sendlog := r.1.sendlog }

end Sys2Proof.Machine
end

