-- ==== Sys2Proof/Certificates/Slice0/Obligations.lean ====
section
/-! DEFINITION. The statements for the provers, each with the rule or section of spec/ it comes from. -/

open Sys2Proof Sys2Proof.Machine

/-! ### Encoding and decoding (30_encoding.md) -/

/-- R67, R71, R85, R66: decoding what the encoder gives for a command gives that command back, every operand at every value. -/
def Obligations.DecodeEncodeRoundTrip : Prop :=
  ∀ i : Instr, decodeCommand (encode i) = .ok i

/-- R67, R71: a word has one meaning only: the word of the command it decodes to is the word itself. -/
def Obligations.DecodedWordReencodes : Prop :=
  ∀ (w : CmdWord) (text : List Byte) (i : Instr), decode w text = .ok i → encodeWord i = w

/-- R71, with the rows of R67 written out: a word that a row selects decodes to that row's command with A = w[23:16], B = w[15:0]
and their sub-fields (R65); a word no row selects is Illegal(ReservedBits) if its OP is a row's, else Illegal(Opcode); at most one
row selects a word. -/
def Obligations.DecodeFollowsOpcodeMap : Prop :=
  ∀ (w : CmdWord) (text : List Byte),
    let a : Byte := BitVec.ofNat 8 (w.toNat / 2 ^ 16)
    let b : Half := BitVec.ofNat 16 w.toNat
    let rows : List (CmdWord × CmdWord × Instr) :=
      [(0x01000000, 0xFFFFFFFF, .openSession), (0x02000000, 0xFFFFFFFF, .closeSession),
       (0x10000000, 0xFF00FFFE, .sym a (b.getLsbD 0)), (0x11000000, 0xFF00FF00, .tdig a (BitVec.ofNat 8 w.toNat)),
       (0x12000000, 0xFF000000, .tchr a b), (0x13000000, 0xFF000000, .bchr a b), (0x14000000, 0xFFFFFFFF, .clear),
       (0x20000000, 0xFFFFFFFF, .flush), (0x30000000, 0xFFFFFFFF, .save), (0x31000000, 0xFFFFFFFF, .load text),
       (0x40000000, 0xFFFF0000, .getkey b), (0x50000000, 0xFF00FFFF, .fontd a), (0x51000000, 0xFF00FFFF, .fontc a)]
    (∀ r ∈ rows, w &&& r.2.1 = r.1 → decode w text = .ok r.2.2 ∧ ∀ r' ∈ rows, w &&& r'.2.1 = r'.1 → r' = r) ∧
    ((∀ r ∈ rows, w &&& r.2.1 ≠ r.1) →
      ((∃ r ∈ rows, w.toNat / 2 ^ 24 = r.1.toNat / 2 ^ 24) → decode w text = .error .reservedBits) ∧
      ((∀ r ∈ rows, w.toNat / 2 ^ 24 ≠ r.1.toNat / 2 ^ 24) → decode w text = .error .opcode))

/-- R69: a word with an illegal OP completes with IllegalCommand (cause 0, R123), writes no state, and advances `cidx`. -/
def Obligations.IllegalOpcodeCompletes : Prop :=
  ∀ (s : State) (w : CmdWord) (text : List Byte) (rest : List Command),
    s.cpWait = none → s.port = { word := w, text := text } :: rest →
    (let op := w.toNat / 2 ^ 24
     op = 0x00 ∨ (0x03 ≤ op ∧ op ≤ 0x0F) ∨ (0x15 ≤ op ∧ op ≤ 0x1F) ∨ (0x21 ≤ op ∧ op ≤ 0x2F) ∨
       (0x32 ≤ op ∧ op ≤ 0x3F) ∨ (0x41 ≤ op ∧ op ≤ 0x4F) ∨ (0x52 ≤ op ∧ op ≤ 0xFF)) →
    cpStep s = .next { s with port := rest, cidx := s.cidx + 1, resp := some ⟨.illegalCommand, .byte 0⟩ }

/-- R70: a word with a legal OP and a reserved bit set completes with IllegalCommand (cause 1, R123) and writes no state. -/
def Obligations.ReservedBitCompletes : Prop :=
  ∀ (s : State) (w : CmdWord) (text : List Byte) (rest : List Command) (pattern mask : CmdWord),
    s.cpWait = none → s.port = { word := w, text := text } :: rest →
    (pattern, mask) ∈ ([(0x01000000, 0xFFFFFFFF), (0x02000000, 0xFFFFFFFF), (0x10000000, 0xFF00FFFE), (0x11000000, 0xFF00FF00),
      (0x12000000, 0xFF000000), (0x13000000, 0xFF000000), (0x14000000, 0xFFFFFFFF), (0x20000000, 0xFFFFFFFF),
      (0x30000000, 0xFFFFFFFF), (0x31000000, 0xFFFFFFFF), (0x40000000, 0xFFFF0000), (0x50000000, 0xFF00FFFF),
      (0x51000000, 0xFF00FFFF)] : List (CmdWord × CmdWord)) →
    w.toNat / 2 ^ 24 = pattern.toNat / 2 ^ 24 → w &&& mask ≠ pattern →
    cpStep s = .next { s with port := rest, cidx := s.cidx + 1, resp := some ⟨.illegalCommand, .byte 1⟩ }

/-- 95_test_vectors.md §3.1: words written out by the spec decode to what it says they are. -/
def Obligations.SampleWordsDecode : Prop :=
  decodeTableWord 32 0x01000000 = some .openSession ∧ decodeTableWord 32 0x01000001 = none ∧
    decodeTableWord 32 0x10040001 = some (.sym 4 true) ∧ decodeTableWord 32 0x10040002 = none ∧
    decodeTableWord 32 0x110500FF = some (.tdig 5 0xFF) ∧ decodeTableWord 32 0x12FFFFFF = some (.tchr 255 0xFFFF) ∧
    decodeTableWord 32 0x1303F000 = some (.bchr 3 0xF000) ∧ decodeTableWord 32 0x4000FFFF = some (.getkey 65535) ∧
    decodeTableWord 32 0x40010000 = none ∧ decodeTableWord 32 0xFF000000 = none

/-! ### Steps (R13, R52, R57) -/

/-- R13, R52, R57: a step in which CP takes a command is `exec` of it, or the illegal word's response; the step around it moves
the port and the schedule on (log 5, 6). -/
def Obligations.StepRunsDecodedCommand : Prop :=
  ∀ (s : State) (c : Command) (rest : List Command), s.nextAgent = .cp → s.cpWait = none → s.port = c :: rest →
    (∀ i, decodeCommand c = .ok i →
      step s = exec i { s with port := rest, sched := s.sched.tail, ticks := s.ticks + 1 }) ∧
    (∀ why, decodeCommand c = .error why →
      step s = illegalWord why { s with port := rest, sched := s.sched.tail, ticks := s.ticks + 1 })

/-- R13, R57, R106: a step in which KM moves is its step; the schedule moves on (log 5). -/
def Obligations.StepMovesMonitor : Prop :=
  ∀ s : State, s.nextAgent = .km → step s = .next (kmStep { s with sched := s.sched.tail, ticks := s.ticks + 1 })

/-- R44, R151: CP has no step while the host has issued nothing or while it waits for ever in a Send: only the schedule moves on
(log 5, 8). -/
def Obligations.IdleCommandPathChangesNothing : Prop :=
  ∀ s : State, s.nextAgent = .cp → (s.port = [] ∨ s.cpWait ≠ none) →
    step s = .next { s with sched := s.sched.tail, ticks := s.ticks + 1 }

/-- Log 6: the host's placing of a word makes the very next step run it. -/
def Obligations.FetchedWordRuns : Prop :=
  ∀ (s : State) (w : Nat) (i : Instr), decodeTableWord 32 w = some i →
    step (s.withFetchWord 32 w) = exec i { s with cpWait := none, ticks := s.ticks + 1 }

/-! ### Font (41_font.md) -/

/-- R89: font_digit, the entry of the hex digit's value for '0'..'9', 'a'..'f', 'A'..'F', else all off. -/
def Obligations.FontDigitRule : Prop :=
  ∀ (c : ConfigData) (ch : Byte),
    (∀ h : Fin 16, (h.val < 10 ∧ ch.toNat = 0x30 + h.val) ∨
        (10 ≤ h.val ∧ (ch.toNat = 0x61 + (h.val - 10) ∨ ch.toNat = 0x41 + (h.val - 10))) →
      fontDigit c ch = c.fontDigit[h]) ∧
    (¬(0x30 ≤ ch.toNat ∧ ch.toNat ≤ 0x39) → ¬(0x61 ≤ ch.toNat ∧ ch.toNat ≤ 0x66) →
      ¬(0x41 ≤ ch.toNat ∧ ch.toNat ≤ 0x46) → fontDigit c ch = 0)

/-- R91: font_char, all on for 255, the glyph of a defined code, all off for any other. -/
def Obligations.FontCharRule : Prop :=
  ∀ (c : ConfigData) (ch : Byte),
    (ch = 0xFF → fontChar c ch = 0xFFFF) ∧
    (∀ glyph, ch ≠ 0xFF → (ch, glyph) ∈ c.fontChar → (∀ e ∈ c.fontChar, e.1 = ch → e.2 = glyph) → fontChar c ch = glyph) ∧
    (ch ≠ 0xFF → (∀ e ∈ c.fontChar, e.1 ≠ ch) → fontChar c ch = 0)

/-- R90, R92: FONTD and FONTC answer OK with the glyph, in both phases, and write nothing but `cidx` and the response. -/
def Obligations.FontCommandsAnswer : Prop :=
  ∀ (s : State) (ch : Byte),
    exec (.fontd ch) s =
      .next { s with cidx := s.cidx + 1, resp := some ⟨.ok, .byte (fontDigit s.cfg.data ch)⟩ } ∧
    exec (.fontc ch) s =
      .next { s with cidx := s.cidx + 1, resp := some ⟨.ok, .half (fontChar s.cfg.data ch)⟩ }

/-! ### Setters (42_setters.md) -/

/-- R93: SET_BIT(b, o, on) writes the one payload bit (b, o) and sets the dirty bit of that buffer, whatever the bit was, and
raises InvalidCode(b) for b outside 1..7. -/
def Obligations.SetBitRule : Prop :=
  ∀ (s : State) (b : Byte) (o : Nat) (on : Bool), s.buf.wf → o < 40 →
    (¬(1 ≤ b.toNat ∧ b.toNat ≤ 7) →
      setBits [(some ⟨b, o⟩, on)] s = .next { s with cidx := s.cidx + 1, resp := some ⟨.invalidCode, .byte b⟩ }) ∧
    (1 ≤ b.toNat ∧ b.toNat ≤ 7 →
      ∃ t, setBits [(some ⟨b, o⟩, on)] s = .next t ∧
        t = { s with buf := t.buf, dirty := t.dirty, cidx := s.cidx + 1, resp := some ⟨.ok, .none⟩ } ∧
        (∀ i p, i < 7 → p < 40 →
          t.payloadBit i p = if i = b.toNat - 1 ∧ p = o then on else s.payloadBit i p) ∧
        (∀ a, a ≠ 8 * (b.toNat - 1) + 3 + o / 8 → t.byteAt a = s.byteAt a) ∧
        (∀ j, j < 7 → t.dirty.getLsbD j = (s.dirty.getLsbD j || decide (j = b.toNat - 1))))

/-- R95: SYM s, on while Open: InvalidSymbol(s) from NSYM up, else one SET_BIT at SYMTAB[s]. -/
def Obligations.SymResult : Prop :=
  ∀ (s : State) (sym : Byte) (on : Bool), s.phase = .opened →
    (s.cfg.data.symtab.length ≤ sym.toNat →
      exec (.sym sym on) s = .next { s with cidx := s.cidx + 1, resp := some ⟨.invalidSymbol, .byte sym⟩ }) ∧
    (∀ h : sym.toNat < s.cfg.data.symtab.length,
      exec (.sym sym on) s =
        .next ((s.writeBit (s.cfg.data.symtab[sym.toNat]'h) on).complete .ok .none))

/-- R96: TDIG p, m while Open: InvalidPosition(p) above 10; at 0 and 3 the bar from m[7]; elsewhere ids 0..6 ascending from
m[0..6]. -/
def Obligations.TdigResult : Prop :=
  ∀ (s : State) (p m : Byte), s.phase = .opened →
    (10 < p.toNat →
      exec (.tdig p m) s = .next { s with cidx := s.cidx + 1, resp := some ⟨.invalidPosition, .byte p⟩ }) ∧
    (∀ h : p.toNat < 11,
      let row := s.cfg.data.diglayout[p.toNat]
      exec (.tdig p m) s =
        if p.toNat = 0 ∨ p.toNat = 3 then .next ((s.writeBit row[7] (m.getLsbD 7)).complete .ok .none)
        else
          .next ((s.writeBits
            [(row[0], m.getLsbD 0), (row[1], m.getLsbD 1), (row[2], m.getLsbD 2), (row[3], m.getLsbD 3),
             (row[4], m.getLsbD 4), (row[5], m.getLsbD 5), (row[6], m.getLsbD 6)]).complete .ok .none))

/-- R98, R99: TCHR p, m while Open: InvalidPosition(p) above 7, else a SET_BIT for each flag of CHAR_FLAGS, ascending, at
TOP_OUTER[p][g] plus delta, of the coupled mask's bit. -/
def Obligations.TchrResult : Prop :=
  ∀ (s : State) (p : Byte) (m : Half), s.phase = .opened →
    (7 < p.toNat →
      exec (.tchr p m) s = .next { s with cidx := s.cidx + 1, resp := some ⟨.invalidPosition, .byte p⟩ }) ∧
    (∀ h : p.toNat < 8, ∃ ref : Nat → SegRef,
      (∀ f : Fin 16, s.cfg.data.charFlags.getLsbD f → ∃ outer : OuterRef,
        (s.cfg.data.topOuter[p.toNat])[(s.cfg.data.topInner[f]).group]? = some outer ∧
          ref f = ⟨outer.id, outer.base + (s.cfg.data.topInner[f]).delta⟩) ∧
      exec (.tchr p m) s =
        .next ((s.writeBits (((List.range 16).filter fun f => s.cfg.data.charFlags.getLsbD f).map fun f =>
          (ref f, (couple m).getLsbD f))).complete .ok .none))

/-- R98, R100: BCHR p, m while Open: as TCHR, with the bottom row's tables and positions 0..3. -/
def Obligations.BchrResult : Prop :=
  ∀ (s : State) (p : Byte) (m : Half), s.phase = .opened →
    (3 < p.toNat →
      exec (.bchr p m) s = .next { s with cidx := s.cidx + 1, resp := some ⟨.invalidPosition, .byte p⟩ }) ∧
    (∀ h : p.toNat < 4, ∃ ref : Nat → SegRef,
      (∀ f : Fin 16, s.cfg.data.charFlags.getLsbD f → ∃ outer : OuterRef,
        (s.cfg.data.botOuter[p.toNat])[(s.cfg.data.botInner[f]).group]? = some outer ∧
          ref f = ⟨outer.id, outer.base + (s.cfg.data.botInner[f]).delta⟩) ∧
      exec (.bchr p m) s =
        .next ((s.writeBits (((List.range 16).filter fun f => s.cfg.data.charFlags.getLsbD f).map fun f =>
          (ref f, (couple m).getLsbD f))).complete .ok .none))

/-- R97: the coupling forces flags LC (bit 10) and RC (bit 11) on when M (bit 6) is set, and changes no other flag. -/
def Obligations.CoupleRule : Prop :=
  ∀ (m : Half) (f : Nat), (couple m).getLsbD f = (m.getLsbD f || (m.getLsbD 6 && (f == 10 || f == 11)))

/-- R17, R47, R93, R102: the frame of SYM, TDIG, TCHR and BCHR, whatever they answer: every byte no SET_BIT of theirs addresses,
every dirty bit of a buffer none of them names, and every other piece of state is unchanged; each byte they can address is payload. -/
def Obligations.SetterFrame : Prop :=
  ∀ (i : Instr) (s t : State), isSetter i = true → exec i s = .next t →
    t = { s with buf := t.buf, dirty := t.dirty, cidx := s.cidx + 1, resp := t.resp } ∧
    (∀ a, (∀ r on, (some r, on) ∈ setterWrites s.cfg.data i → a ≠ segAddress r) → t.byteAt a = s.byteAt a) ∧
    (∀ a, ¬(a < 56 ∧ 3 ≤ a % 8) → t.byteAt a = s.byteAt a) ∧
    (∀ j, (∀ r on, (some r, on) ∈ setterWrites s.cfg.data i → j ≠ r.id.toNat - 1) →
      t.dirty.getLsbD j = s.dirty.getLsbD j)

/-- R94: of several SET_BITs of one command on the same payload bit the last decides, and a bit none of them names keeps its
value. -/
def Obligations.LaterWriteDecides : Prop :=
  ∀ (s : State) (before after : List (SegRef × Bool)) (r : SegRef) (on : Bool), s.buf.wf →
    (∀ w ∈ before ++ (r, on) :: after, w.1.valid = true) →
    ((∀ w ∈ after, ¬(w.1.id = r.id ∧ w.1.off = r.off)) →
      (s.writeBits (before ++ (r, on) :: after)).payloadBit (r.id.toNat - 1) r.off = on) ∧
    (∀ (b : Byte) (o : Nat), 1 ≤ b.toNat → b.toNat ≤ 7 → o < 40 →
      (∀ w ∈ before ++ (r, on) :: after, ¬(w.1.id = b ∧ w.1.off = o)) →
      (s.writeBits (before ++ (r, on) :: after)).payloadBit (b.toNat - 1) o = s.payloadBit (b.toNat - 1) o)

/-- R101: CLEAR while Open: every payload byte 0, headers and everything else untouched, every dirty bit set. -/
def Obligations.ClearResult : Prop :=
  ∀ s : State, s.phase = .opened → s.buf.wf →
    ∃ t, exec .clear s = .next t ∧
      t = { s with buf := t.buf, dirty := 0x7F, cidx := s.cidx + 1, resp := some ⟨.ok, .none⟩ } ∧
      ∀ a, t.byteAt a = if a < 56 ∧ 3 ≤ a % 8 then 0 else s.byteAt a

/-! ### FLUSH (43_flush.md) -/

/-- R103, R105: when every send is answered Ok, FLUSH sends exactly the buffers dirty at entry, each once, in ascending index
order, answers OK and clears the mask; nothing else changes. The model's choices: each record's seq is its place in the log (log
11, DESIGN CHOICE: R27 does not say what it counts), and the answers used up leave the list of coming ones (log 7). -/
def Obligations.FlushSendsDirtyBuffers : Prop :=
  ∀ s : State, s.phase = .opened → (∀ n, n < (dirtyIndices s.dirty).length → s.answerAt n = some .ok) →
    exec .flush s = .next { s with
      sends := s.sends.drop (dirtyIndices s.dirty).length
      sendlog := s.sendlog ++ sendRecords s s.sendlog.length ((dirtyIndices s.dirty).map fun i => (i, SendOutcome.ok))
      dirty := 0
      cidx := s.cidx + 1
      resp := some ⟨.ok, .none⟩ }

/-- R103, R104, R105: when the send of buffer i is the first answered TransportError, FLUSH has sent the dirty buffers up to i in
ascending order, answers TransportError(i), and clears the mask, or keeps it as at entry under FLUSH_KEEP_DIRTY_ON_ERROR. The
model's choices: the records' seq (log 11, DESIGN CHOICE) and the answers used up (log 7). -/
def Obligations.FlushStopsAtFirstError : Prop :=
  ∀ (s : State) (pre post : List (Fin 7)) (i : Fin 7), s.phase = .opened → dirtyIndices s.dirty = pre ++ i :: post →
    (∀ n, n < pre.length → s.answerAt n = some .ok) → s.answerAt pre.length = some .transportError →
    exec .flush s = .next { s with
      sends := s.sends.drop (pre.length + 1)
      sendlog := s.sendlog ++
        sendRecords s s.sendlog.length (pre.map (fun j => (j, SendOutcome.ok)) ++ [(i, SendOutcome.transportError)])
      dirty := if s.cfg.data.policy.flushKeepDirtyOnError then s.dirty else 0
      cidx := s.cidx + 1
      resp := some ⟨.transportError, .byte (BitVec.ofNat 8 i.val)⟩ }

/-- R151, R103, and the model's choice of log 8: when the send of buffer i is never answered, CP is left inside the FLUSH: the
sends before it are logged, the command does not complete, and everything else is as at entry. The records' seq (log 11, DESIGN
CHOICE) and the answers used up (log 7) are the model's choices too. -/
def Obligations.FlushWaitsForEver : Prop :=
  ∀ (s : State) (pre post : List (Fin 7)) (i : Fin 7), s.phase = .opened → dirtyIndices s.dirty = pre ++ i :: post →
    (∀ n, n < pre.length → s.answerAt n = some .ok) → s.answerAt pre.length = none →
    exec .flush s = .next { s with
      sends := s.sends.drop (pre.length + 1)
      sendlog := s.sendlog ++ sendRecords s s.sendlog.length (pre.map fun j => (j, SendOutcome.ok))
      cpWait := some i }

/-- R104: under the default policy the mask is clear after every FLUSH, whatever its status; under the other one a FLUSH that
returns TransportError leaves it exactly as it was at entry. -/
def Obligations.FlushDirtyPolicy : Prop :=
  ∀ (s t : State), s.phase = .opened → exec .flush s = .next t → t.cidx = s.cidx + 1 →
    (s.cfg.data.policy.flushKeepDirtyOnError = false → t.dirty = 0) ∧
    (s.cfg.data.policy.flushKeepDirtyOnError = true → ∀ d, t.resp = some ⟨.transportError, d⟩ → t.dirty = s.dirty)

/-- R28: after a FLUSH that completes, the device is known to hold each buffer it sent with Ok as it is now; what it holds for a
buffer whose send failed is unknown; for every buffer not sent, what is known is unchanged. -/
def Obligations.DeviceImageAfterFlush : Prop :=
  ∀ (s t : State), s.phase = .opened → exec .flush s = .next t → t.cidx = s.cidx + 1 →
    (t.resp = some ⟨.ok, .none⟩ →
      ∀ i, t.deviceImage i = if s.dirty.getLsbD i.val then some (s.buffer i) else s.deviceImage i) ∧
    (∀ i : Fin 7, t.resp = some ⟨.transportError, .byte (BitVec.ofNat 8 i.val)⟩ →
      t.deviceImage i = none ∧
      ∀ j : Fin 7, j ≠ i →
        t.deviceImage j = if s.dirty.getLsbD j.val ∧ j < i then some (s.buffer j) else s.deviceImage j)

/-! ### Keypad (44_keypad.md) -/

/-- R107: a Timeout answer sets the failure count to 0 and changes nothing else (the answer itself is used up). -/
def Obligations.KeypadTimeoutRule : Prop :=
  ∀ s : State, s.mon = .running → s.kmWait = false → s.nextReport = some .timeout →
    kmStep s = { s with errcnt := 0, reports := s.reports.tail }

/-- R108, R109: a read failure adds 1 to the failure count; when it reaches READ_ERR_LIMIT the monitor terminates and the channel
is emptied, else nothing else changes. -/
def Obligations.KeypadReadFailureRule : Prop :=
  ∀ s : State, s.mon = .running → s.kmWait = false → s.nextReport = some .transportError →
    (s.cfg.data.policy.readErrLimit ≤ s.errcnt + 1 →
      kmStep s = { s with errcnt := s.errcnt + 1, mon := .terminated, chan := .empty, reports := s.reports.tail }) ∧
    (s.errcnt + 1 < s.cfg.data.policy.readErrLimit →
      kmStep s = { s with errcnt := s.errcnt + 1, reports := s.reports.tail })

/-- R110, with the count cleared by R106: a report whose first three bytes differ from KEY_SIG in any byte is discarded: no event,
no change to the channel. -/
def Obligations.NonKeyReportDiscarded : Prop :=
  ∀ (s : State) (x : Bytes8), s.mon = .running → s.kmWait = false → s.nextReport = some (.report x) →
    (x[0] ≠ s.cfg.data.keySig[0] ∨ x[1] ≠ s.cfg.data.keySig[1] ∨ x[2] ≠ s.cfg.data.keySig[2]) →
    kmStep s = { s with errcnt := 0, reports := s.reports.tail }

/-- R111, with the count cleared by R106: a key report publishes byte 3 unmodified, replacing any pending event; bytes 4..7 do not
matter. -/
def Obligations.KeyReportPublished : Prop :=
  ∀ (s : State) (k b4 b5 b6 b7 : Byte), s.mon = .running → s.kmWait = false →
    s.nextReport = some (.report
      #v[s.cfg.data.keySig[0], s.cfg.data.keySig[1], s.cfg.data.keySig[2], k, b4, b5, b6, b7]) →
    kmStep s = { s with errcnt := 0, chan := .full k, reports := s.reports.tail }

/-- R106, R137, and the model's choice of log 9: KM has no step unless it is running and not waiting; a read that is never answered
leaves it waiting. -/
def Obligations.MonitorWithoutStep : Prop :=
  ∀ s : State,
    (s.mon ≠ .running ∨ s.kmWait = true → kmStep s = s) ∧
    (s.mon = .running → s.kmWait = false → s.nextReport = none →
      kmStep s = { s with reports := s.reports.tail, kmWait := true })

/-- R112: no KM step reads or writes the buffers, the dirty mask, the phase, the send log or `cidx` (nor the response); it writes
only the monitor, the channel and the failure count, and what it does to the monitor and the count does not depend on the channel. -/
def Obligations.KeypadSeparation : Prop :=
  ∀ (s : State) (m : Memory) (d : BitVec 7) (p : Phase) (l : List SendRecord) (n : Nat) (r : Option Response) (ch : Channel),
    kmStep { s with buf := m, dirty := d, phase := p, sendlog := l, cidx := n, resp := r } =
      { kmStep s with buf := m, dirty := d, phase := p, sendlog := l, cidx := n, resp := r } ∧
    kmStep s = { s with
      mon := (kmStep s).mon, chan := (kmStep s).chan, errcnt := (kmStep s).errcnt, reports := (kmStep s).reports,
      kmWait := (kmStep s).kmWait } ∧
    (kmStep { s with chan := ch }).mon = (kmStep s).mon ∧ (kmStep { s with chan := ch }).errcnt = (kmStep s).errcnt

/-- R113: GETKEY while Open: a pending event is consumed and returned; with none, MonitorTerminated(KEY_ERR) once the monitor has
terminated, else Idle(KEY_IDLE). The timeout does not matter. -/
def Obligations.GetkeyResult : Prop :=
  ∀ (s : State) (timeout : Half), s.phase = .opened →
    (∀ k, s.chan = .full k →
      exec (.getkey timeout) s =
        .next { s with chan := .empty, cidx := s.cidx + 1, resp := some ⟨.ok, .byte k⟩ }) ∧
    (s.chan = .empty → s.mon = .terminated →
      exec (.getkey timeout) s =
        .next { s with cidx := s.cidx + 1, resp := some ⟨.monitorTerminated, .byte s.cfg.data.keyErr⟩ }) ∧
    (s.chan = .empty → s.mon = .running →
      exec (.getkey timeout) s =
        .next { s with cidx := s.cidx + 1, resp := some ⟨.idle, .byte s.cfg.data.keyIdle⟩ })

/-- R109: in an open session a terminated monitor with an empty channel stays so through every step but CLOSE. -/
def Obligations.TerminatedUntilClose : Prop :=
  ∀ (s t : State), s.phase = .opened → s.mon = .terminated → s.chan = .empty → step s = .next t →
    (t.phase = .opened ∧ t.mon = .terminated ∧ t.chan = .empty) ∨ (t.phase = .closed ∧ t.mon = .stopped)

/-- R134: GETKEY never returns Idle once the monitor has terminated, and no step that completes a command gives the status
Timeout. -/
def Obligations.NeitherIdleNorTimeout : Prop :=
  (∀ (s t : State) (timeout : Half), s.mon = .terminated → exec (.getkey timeout) s = .next t →
    ∀ d, t.resp ≠ some ⟨.idle, d⟩) ∧
  (∀ (s t : State), step s = .next t → t.cidx = s.cidx + 1 → ∀ d, t.resp ≠ some ⟨.timeout, d⟩)

/-- R114: key_decode gives bit 5 as pressed and the low 5 bits as the key identity. -/
def Obligations.KeyDecodeRule : Prop :=
  ∀ k : Byte, (keyDecode k).pressed = k.getLsbD 5 ∧ (keyDecode k).keyId.toNat = k.toNat % 32

/-! ### Session and persisted state (45_session.md) -/

/-- R116: OPEN while Closed seeds every buffer byte from TEMPLATE, clears the mask, the channel and the failure count, starts KM
(not waiting, log 9) and opens the session; nothing is sent. -/
def Obligations.OpenResult : Prop :=
  ∀ s : State, s.phase = .closed →
    ∃ t, exec .openSession s = .next t ∧
      t = { s with
        phase := .opened, buf := t.buf, dirty := 0, mon := .running, chan := .empty, errcnt := 0, kmWait := false,
        cidx := s.cidx + 1, resp := some ⟨.ok, .none⟩ } ∧
      ∀ (i : Fin 7) (k : Fin 8), t.bufByte i k = s.cfg.data.template[i][k]

/-- R117, with log 4 for how absent buffers are held and log 9 for the read in flight: CLOSE while Open stops KM, empties the
channel, clears the count, drops buffers and mask and closes the session; nothing is sent. -/
def Obligations.CloseResult : Prop :=
  ∀ s : State, s.phase = .opened →
    exec .closeSession s = .next { s with
      phase := .closed, buf := [], dirty := 0, mon := .stopped, chan := .empty, errcnt := 0, kmWait := false,
      cidx := s.cidx + 1, resp := some ⟨.ok, .none⟩ }

/-- R82: the text SAVE writes has 280 bytes, and at each buffer byte's place stand 0x, its two lower-case hex digits and a space,
or LF after the last byte of a buffer. SAVE while Open answers OK with it and writes nothing else (R118). -/
def Obligations.SaveTextFormat : Prop :=
  ∀ s : State, s.phase = .opened →
    ∃ text : List Byte,
      exec .save s = .next { s with cidx := s.cidx + 1, resp := some ⟨.ok, .text text⟩ } ∧
      text.length = 280 ∧
      ∀ (i : Fin 7) (k : Fin 8),
        let digits : List Byte := [0x30, 0x31, 0x32, 0x33, 0x34, 0x35, 0x36, 0x37, 0x38, 0x39, 0x61, 0x62, 0x63, 0x64, 0x65, 0x66]
        let at_ := 40 * i.val + 5 * k.val
        let v := (s.bufByte i k).toNat
        text[at_]? = some 0x30 ∧ text[at_ + 1]? = some 0x78 ∧ text[at_ + 2]? = digits[v / 16]? ∧
          text[at_ + 3]? = digits[v % 16]? ∧ text[at_ + 4]? = some (if k.val = 7 then 0x0A else 0x20)

/-- R83: the tokeniser splits at runs of the six whitespace bytes and gives no empty token; a token is valid iff it is '0', 'x' or
'X' and two hex digits of either case, and its value is theirs. -/
def Obligations.TokenRule : Prop :=
  let white : List Byte := [0x20, 0x09, 0x0A, 0x0B, 0x0C, 0x0D]
  let digit (d : Byte) (n : Nat) : Prop :=
    (n < 10 ∧ d.toNat = 0x30 + n) ∨ (10 ≤ n ∧ n < 16 ∧ (d.toNat = 0x61 + (n - 10) ∨ d.toNat = 0x41 + (n - 10)))
  (tokenize [] = []) ∧
  (∀ w ∈ white, ∀ rest, tokenize (w :: rest) = tokenize rest) ∧
  (∀ t : List Byte, t ≠ [] → (∀ b ∈ t, b ∉ white) →
    tokenize t = [t] ∧ ∀ w ∈ white, ∀ rest, tokenize (t ++ w :: rest) = t :: tokenize rest) ∧
  (∀ (t : List Byte) (v : Byte), tokenValue t = some v ↔
    ∃ (x h l : Byte) (hi lo : Nat), t = [0x30, x, h, l] ∧ (x = 0x78 ∨ x = 0x58) ∧ digit h hi ∧ digit l lo ∧
      v.toNat = 16 * hi + lo)

/-- R119, R120, R121: LOAD while Open of a text whose tokens 0..55 are all valid stores the 35 payload bytes, leaves the headers,
marks every buffer dirty and answers OK, under either policy. -/
def Obligations.LoadStoresAllPayload : Prop :=
  ∀ (s : State) (text : List Byte), s.phase = .opened → s.buf.wf → (loadValues text).length = 56 →
    ∃ t, exec (.load text) s = .next t ∧
      t = { s with buf := t.buf, dirty := 0x7F, cidx := s.cidx + 1, resp := some ⟨.ok, .none⟩ } ∧
      ∀ a, if a < 56 ∧ 3 ≤ a % 8 then (loadValues text)[a]? = some (t.byteAt a) else t.byteAt a = s.byteAt a

/-- R119, R120: with LOAD_ATOMIC = false, LOAD while Open of a text whose token j is the first bad or missing one answers
InvalidFormat(j); the payload bytes of tokens before j are stored and their buffers dirty; nothing else changes. -/
def Obligations.LoadFailsProgressively : Prop :=
  ∀ (s : State) (text : List Byte), s.phase = .opened → s.buf.wf → s.cfg.data.policy.loadAtomic = false →
    (loadValues text).length < 56 →
    ∃ t, exec (.load text) s = .next t ∧
      t = { s with
        buf := t.buf, dirty := t.dirty, cidx := s.cidx + 1,
        resp := some ⟨.invalidFormat, .byte (BitVec.ofNat 8 (loadValues text).length)⟩ } ∧
      (∀ a, if a < (loadValues text).length ∧ 3 ≤ a % 8 then (loadValues text)[a]? = some (t.byteAt a)
        else t.byteAt a = s.byteAt a) ∧
      ∀ j, j < 7 → t.dirty.getLsbD j = (s.dirty.getLsbD j || decide (8 * j + 3 < (loadValues text).length))

/-- R121: with LOAD_ATOMIC = true, LOAD while Open of a text with a bad or missing token among 0..55 answers InvalidFormat of the
first one and writes nothing. -/
def Obligations.LoadFailsAtomically : Prop :=
  ∀ (s : State) (text : List Byte), s.phase = .opened → s.cfg.data.policy.loadAtomic = true →
    (loadValues text).length < 56 →
    exec (.load text) s = .next { s with
      cidx := s.cidx + 1, resp := some ⟨.invalidFormat, .byte (BitVec.ofNat 8 (loadValues text).length)⟩ }

/-- R122: the text SAVE gives, loaded into any open session with the same headers, is accepted and reproduces the saved buffers
byte for byte, every buffer dirty. -/
def Obligations.SaveLoadRoundTrip : Prop :=
  ∀ (s t u : State) (text : List Byte), s.phase = .opened → u.phase = .opened → u.buf.wf →
    (∀ (i : Fin 7) (k : Fin 8), k.val < 3 → u.bufByte i k = s.bufByte i k) →
    exec .save s = .next t → t.resp = some ⟨.ok, .text text⟩ →
    ∃ v, exec (.load text) u = .next v ∧ v.resp = some ⟨.ok, .none⟩ ∧ v.dirty = 0x7F ∧
      ∀ (i : Fin 7) (k : Fin 8), v.bufByte i k = s.bufByte i k

/-! ### Errors, phases and the whole machine -/

/-- R125: while Closed every command but OPEN, FONTD and FONTC completes with IllegalCommand (cause 2) and writes no state, and
those three answer OK; OPEN while Open completes with IllegalCommand (cause 2) too. -/
def Obligations.PhaseGating : Prop :=
  ∀ (s : State) (i : Instr),
    (s.phase = .closed → runsClosed i = false →
      exec i s = .next { s with cidx := s.cidx + 1, resp := some ⟨.illegalCommand, .byte 2⟩ }) ∧
    (s.phase = .closed → runsClosed i = true → ∃ t d, exec i s = .next t ∧ t.resp = some ⟨.ok, d⟩) ∧
    (s.phase = .opened →
      exec .openSession s = .next { s with cidx := s.cidx + 1, resp := some ⟨.illegalCommand, .byte 2⟩ })

/-- R127: a command that completes with a status other than OK, TransportError and InvalidFormat leaves every piece of state as
it was, except `cidx` and the response. -/
def Obligations.ErrorsLeaveState : Prop :=
  ∀ (i : Instr) (s t : State) (r : Response), exec i s = .next t → t.cidx = s.cidx + 1 → t.resp = some r →
    r.status ≠ .ok → r.status ≠ .transportError → r.status ≠ .invalidFormat →
    t = { s with cidx := s.cidx + 1, resp := some r }

/-- R30: a command adds exactly one to `cidx` when it completes, whatever its status, and an illegal word does too; only a FLUSH
left waiting for ever has not completed (R151). No step of the machine moves `cidx` in any other way. -/
def Obligations.CommandIndexAdvances : Prop :=
  (∀ (i : Instr) (s t : State), exec i s = .next t →
    (t.cidx = s.cidx + 1 ∧ ∃ r, t.resp = some r) ∨ (i = .flush ∧ t.cpWait ≠ none ∧ t.cidx = s.cidx ∧ t.resp = s.resp)) ∧
  (∀ (s t : State), step s = .next t → t.cidx = s.cidx ∨ t.cidx = s.cidx + 1)

/-- R25: no step writes the tables or the policies (held in the state by log 1). -/
def Obligations.ConfigurationNeverWritten : Prop :=
  ∀ (s t : State), step s = .next t → t.cfg = s.cfg

/-- R142: before the first command the phase is Closed (so there are no buffers and no dirty mask), the monitor is stopped, the
channel empty, the failure count and `cidx` 0, the send log empty, and the configuration well-formed. -/
def Obligations.ResetState : Prop :=
  State.reset.phase = .closed ∧ State.reset.mon = .stopped ∧ State.reset.chan = .empty ∧ State.reset.errcnt = 0 ∧
    State.reset.cidx = 0 ∧ State.reset.sendlog = [] ∧ State.reset.cfg.data.wf = true

/-- The invariant of the machine holds at reset (R42, R142; log 4). -/
def Obligations.ResetInvariant : Prop := State.reset.Inv

/-- Every step keeps the invariant: the buffer memory canonical and inside its 56 bytes, headers the template's (R17), the monitor
matching the phase (R22), a terminated monitor without event (R109), the failure count below the limit (R108), the log numbered
(R27, log 11), and the representation of absent state (R42, log 4, 8). -/
def Obligations.StepKeepsInvariant : Prop :=
  ∀ (s t : State), s.Inv → step s = .next t → t.Inv

/-- R17: while Open, byte 0 of every buffer is 0x02 and bytes 1 and 2 are the template's: every step keeps it from any state that
has it, and no command that leaves the session open writes bytes 0..2. -/
def Obligations.HeadersNeverChange : Prop :=
  (∀ (s t : State), HeadersFixed s → step s = .next t → HeadersFixed t) ∧
  (∀ (s : State) (i : Fin 7), HeadersFixed s → s.phase = .opened →
    s.bufByte i 0 = 0x02 ∧ s.bufByte i 1 = s.cfg.data.template[i][1] ∧ s.bufByte i 2 = s.cfg.data.template[i][2]) ∧
  (∀ (i : Instr) (s t : State), s.phase = .opened → t.phase = .opened → exec i s = .next t →
    ∀ (b : Fin 7) (k : Fin 8), k.val < 3 → t.bufByte b k = s.bufByte b k)

/-- R10, R41, R102, R128: no step stops: from every state, under every well-formed configuration, a step answers a next state, and
so does every command. That a scheduled agent without a step (R151 gives a waiting CP none) still answers a next state, in which
only the schedule moves on, and that a FLUSH whose send is never answered does, are the model's choices (log 5, 8). -/
def Obligations.EveryStepGoesOn : Prop :=
  (∀ s : State, ∃ t, step s = .next t) ∧ ∀ (i : Instr) (s : State), ∃ t, exec i s = .next t

/-- R57, R112: a KM step and a command that touches neither the monitor nor the channel give the same state in either order. -/
def Obligations.KeypadStepsCommute : Prop :=
  ∀ (i : Instr) (s t : State), leavesKeypad i = true → exec i s = .next t → exec i (kmStep s) = .next (kmStep t)

/-- R42, R125: while Closed no command reads the absent buffers and mask: whatever is put there, the response is the same, and so
is the state after it, but for what was put there if the session stays Closed. -/
def Obligations.AbsentStateNeverRead : Prop :=
  ∀ (i : Instr) (s t : State) (m : Memory) (d : BitVec 7), s.phase = .closed → exec i s = .next t →
    (t.phase = .opened ∧ exec i { s with buf := m, dirty := d } = .next t) ∨
    (t.phase = .closed ∧ exec i { s with buf := m, dirty := d } = .next { t with buf := m, dirty := d })

/-- R143: CLOSE followed by OPEN gives a session indistinguishable from a first one under the same configuration, but for `cidx`,
the send log and the run's inputs. -/
def Obligations.ReopenedSessionIsFresh : Prop :=
  ∀ s : State, s.phase = .opened →
    ∃ t u v, exec .closeSession s = .next t ∧ exec .openSession t = .next u ∧
      exec .openSession (State.powerUp s.cfg) = .next v ∧
      u.phase = v.phase ∧ u.buf = v.buf ∧ u.dirty = v.dirty ∧ u.mon = v.mon ∧ u.chan = v.chan ∧ u.errcnt = v.errcnt ∧
      u.kmWait = v.kmWait ∧ u.resp = v.resp ∧ u.cfg = v.cfg ∧ u.sendlog = s.sendlog ∧ u.cidx = s.cidx + 2

/-- R151: while CP waits for ever in a Send no step changes anything but the monitor, the channel, the failure count and the run's
inputs: KM keeps stepping, and no command completes. -/
def Obligations.WaitingCommandPathIsStuck : Prop :=
  ∀ (s t : State), s.cpWait ≠ none → step s = .next t →
    t = { s with
      mon := t.mon, chan := t.chan, errcnt := t.errcnt, reports := t.reports, kmWait := t.kmWait,
      sched := s.sched.tail, ticks := s.ticks + 1 }

/-! ### Assembler (30_encoding.md §4) -/

/-- R85, R86, R88, with the choices of log 18: what disassembly prints for a command reads back as a line that assembles to the
command's word and text, LOAD with every text whose bytes are ASCII codes (below 128), the escaped ones among them. -/
def Obligations.DisassemblyReassembles : Prop :=
  ∀ (c : ConfigData) (i : Instr), (∀ text, i = .load text → ∀ b ∈ text, b.toNat < 128) →
    ∃ l, parseLine (disassemble (encode i)) = .line l ∧ assemble c l = some [encode i]

/-- R87, every row of its table. SYMON, SYMOFF and TDIGBLANK assemble to their SYM and TDIG words, LAMPCHR to its 12 words; TCHRC,
BCHRC and TDIGC assemble to the setter with the glyph that FONTC or FONTD answers; TSTR and BSTR assemble to one TCHRC or BCHRC per
byte, at successive positions, and are rejected past the end of their row. -/
def Obligations.GlyphPseudoInstructions : Prop :=
  (∀ (c : ConfigData) (x : Byte),
    assemble c (.symon x.toNat) = some [encode (.sym x true)] ∧
    assemble c (.symoff x.toNat) = some [encode (.sym x false)] ∧
    assemble c (.tdigblank x.toNat) = some [encode (.tdig x 0)]) ∧
  (∀ c : ConfigData, assemble c .lampchr = some
    [encode (.tchr 0 0xFFFF), encode (.tchr 1 0xFFFF), encode (.tchr 2 0xFFFF), encode (.tchr 3 0xFFFF),
     encode (.tchr 4 0xFFFF), encode (.tchr 5 0xFFFF), encode (.tchr 6 0xFFFF), encode (.tchr 7 0xFFFF),
     encode (.bchr 0 0xFFFF), encode (.bchr 1 0xFFFF), encode (.bchr 2 0xFFFF), encode (.bchr 3 0xFFFF)]) ∧
  (∀ (s t : State) (p ch : Byte),
    (∀ g, exec (.fontc ch) s = .next t → t.resp = some ⟨.ok, .half g⟩ →
      assemble s.cfg.data (.tchrc p.toNat ch) = some [encode (.tchr p g)] ∧
      assemble s.cfg.data (.bchrc p.toNat ch) = some [encode (.bchr p g)]) ∧
    (∀ g, exec (.fontd ch) s = .next t → t.resp = some ⟨.ok, .byte g⟩ →
      assemble s.cfg.data (.tdigc p.toNat ch) = some [encode (.tdig p g)])) ∧
  (∀ (c : ConfigData) (p : Nat) (str : List Byte),
    (p + str.length ≤ 8 → ∃ words, assemble c (.tstr p str) = some words ∧ words.length = str.length ∧
      ∀ n ch, str[n]? = some ch → ∃ w, words[n]? = some w ∧ assemble c (.tchrc (p + n) ch) = some [w]) ∧
    (8 < p + str.length → assemble c (.tstr p str) = none) ∧
    (p + str.length ≤ 4 → ∃ words, assemble c (.bstr p str) = some words ∧ words.length = str.length ∧
      ∀ n ch, str[n]? = some ch → ∃ w, words[n]? = some w ∧ assemble c (.bchrc (p + n) ch) = some [w]) ∧
    (4 < p + str.length → assemble c (.bstr p str) = none))
end

