-- ==== Sys2Proof/Laws/Assembler.lean ====
section
/-! SUPPORT. The assembler: numbers and strings are read back as they are printed (R86, R88), and what a string of characters stands
for (R87). -/

namespace Sys2Proof.Machine

/-- A hex digit stays inside the word being read. -/
theorem lex_hexChar : ∀ v, v < 16 → ∀ (cs w : List Char), lex (hexChar v :: cs) (.word w) = lex cs (.word (hexChar v :: w)) := by
  intro v hv cs w
  have key : ∀ v, v < 16 → hexChar v ≠ ';' ∧ isBlank (hexChar v) = false ∧ hexChar v ≠ ',' ∧ hexChar v ≠ '"' ∧ hexChar v ≠ '\'' := by
    decide
  obtain ⟨h1, h2, h3, h4, h5⟩ := key v hv
  rw [lex, if_neg h1, if_neg (by simp [h2]), if_neg h3, if_neg h4, if_neg h5]

theorem digitValue_hexChar : ∀ v, v < 16 → digitValue 16 (hexChar v) = some v := by decide

/-- A number printed in n hex digits is read into one word. -/
theorem lex_hexChars (n v : Nat) (cs w : List Char) :
    lex (hexChars n v ++ cs) (.word w) = lex cs (.word ((hexChars n v).reverse ++ w)) := by
  induction n generalizing v cs w with
  | zero => rfl
  | succ n ih =>
    rw [hexChars, List.append_assoc, ih, List.singleton_append, lex_hexChar _ (by omega)]
    simp

/-- A printed number is read back, after the digits already read. -/
theorem digitsValue_hexChars (n v acc : Nat) (cs : List Char) (h : v < 16 ^ n) :
    digitsValue 16 acc (hexChars n v ++ cs) = digitsValue 16 (16 ^ n * acc + v) cs := by
  induction n generalizing v acc cs with
  | zero =>
    have : v = 0 := by simpa using h
    subst this
    simp [hexChars]
  | succ n ih =>
    have hv : v / 16 < 16 ^ n := by
      rw [Nat.div_lt_iff_lt_mul (by omega)]
      rwa [Nat.pow_succ] at h
    rw [hexChars, List.append_assoc, ih _ _ _ hv, List.singleton_append, digitsValue, digitValue_hexChar _ (by omega),
      Option.bind_some]
    congr 1
    rw [Nat.pow_succ]
    have := Nat.div_add_mod v 16
    have e : 16 ^ n * 16 * acc = 16 * (16 ^ n * acc) := by ring
    omega

theorem hexChars_cons (n v : Nat) : ∃ c cs, hexChars (n + 1) v = c :: cs := by
  cases h : hexChars (n + 1) v with
  | nil => simp [hexChars] at h
  | cons c cs => exact ⟨c, cs, rfl⟩

/-- A printed number is the number (R86). -/
theorem numberValue_hexLiteral (n v : Nat) (h : v < 16 ^ (n + 1)) : numberValue (hexLiteral (n + 1) v) = some v := by
  have hd := digitsValue_hexChars (n + 1) v 0 [] h
  obtain ⟨c, cs, hc⟩ := hexChars_cons n v
  rw [List.append_nil, hc] at hd
  rw [hexLiteral, hc]
  simpa [numberValue, digitsValue] using hd

/-- A printed number starts a word and stays in it. -/
theorem lex_hexLiteral (n v : Nat) (cs : List Char) :
    lex (hexLiteral n v ++ cs) (.word []) = lex cs (.word (hexLiteral n v).reverse) := by
  have h0 : ∀ cs w, lex ('0' :: cs) (.word w) = lex cs (.word ('0' :: w)) := lex_hexChar 0 (by decide)
  have hx : ∀ cs w, lex ('x' :: cs) (.word w) = lex cs (.word ('x' :: w)) := fun _ _ => rfl
  rw [hexLiteral, List.cons_append, List.cons_append, h0, hx, lex_hexChars]
  simp

/-! ### String literals (R86) -/

/-- The printed form of an ASCII byte is read back into the string being read. -/
theorem lex_stringChars (b : Byte) (hb : b.toNat < 128) (cs : List Char) (t : List Byte) :
    lex (stringChars b ++ cs) (.str t) = lex cs (.str (b :: t)) := by
  have key : ∀ b : Byte, b.toNat < 128 → b ≠ 0x5C → b ≠ 0x22 →
      Char.ofNat b.toNat ≠ '"' ∧ Char.ofNat b.toNat ≠ '\\' ∧ asciiByte (Char.ofNat b.toNat) = some b := by decide
  by_cases h1 : b = 0x0A
  · subst h1; rfl
  · by_cases h2 : b = 0x09
    · subst h2; rfl
    · by_cases h3 : b = 0x5C
      · subst h3; rfl
      · by_cases h4 : b = 0x22
        · subst h4; rfl
        · obtain ⟨k1, k2, k3⟩ := key b hb h3 h4
          rw [stringChars, if_neg h1, if_neg h2, if_neg h3, if_neg h4, List.singleton_append, lex, if_neg k1, if_neg k2, k3,
            Option.bind_some]

/-- A printed ASCII string and its closing quote are read back as one string token. -/
theorem lex_stringLiteral (text : List Byte) (h : ∀ b ∈ text, b.toNat < 128) (cs : List Char) (t : List Byte) :
    lex (text.flatMap stringChars ++ '"' :: cs) (.str t) = (lex cs (.word [])).map (.str (t.reverse ++ text) :: ·) := by
  induction text generalizing t with
  | nil => simp [lex]
  | cons b text ih =>
    rw [List.flatMap_cons, List.append_assoc, lex_stringChars b (h b List.mem_cons_self),
      ih fun b' hb' => h b' (List.mem_cons_of_mem _ hb')]
    simp

/-! ### Strings of characters (R87) -/

theorem stringCommands_length (c : ConfigData) (setter : Byte → Half → Instr) (p : Nat) (t : List Byte) :
    (stringCommands c setter p t).length = t.length := by
  induction t generalizing p with
  | nil => rfl
  | cons ch t ih => rw [stringCommands, List.length_cons, ih, List.length_cons]

/-- The n-th byte of a string is set at the n-th position from p. -/
theorem stringCommands_get (c : ConfigData) (setter : Byte → Half → Instr) (p : Nat) (t : List Byte) (n : Nat) :
    (stringCommands c setter p t)[n]? = t[n]?.map fun ch => setter (BitVec.ofNat 8 (p + n)) (fontChar c ch) := by
  induction t generalizing p n with
  | nil => rfl
  | cons ch t ih =>
    cases n with
    | zero => rfl
    | succ n =>
      rw [stringCommands, List.getElem?_cons_succ, List.getElem?_cons_succ, ih, show p + 1 + n = p + (n + 1) by omega]

end Sys2Proof.Machine
end

