-- ==== Sys2Proof/Laws/Decode.lean ====
section
/-! SUPPORT. The decoder read through the fields of a word: when a row selects a word, and what decode answers for each OP. -/

namespace Sys2Proof

theorem packWord_getLsbD (op a : Byte) (b : Half) (i : Nat) (hi : i < 32) :
    (packWord op a b).getLsbD i =
      if i < 16 then b.getLsbD i else if i < 24 then a.getLsbD (i - 16) else op.getLsbD (i - 24) := by
  simp only [packWord, BitVec.getLsbD_or, BitVec.getLsbD_shiftLeft, BitVec.getLsbD_setWidth, hi, decide_true, Bool.true_and]
  split
  · simp [show i < 24 by omega, *]
  · split
    · simp [*, show i - 16 < 32 by omega, b.getLsbD_of_ge i (by omega)]
    · simp [*, show i - 16 < 32 by omega, show i - 24 < 32 by omega, b.getLsbD_of_ge i (by omega),
        a.getLsbD_of_ge (i - 16) (by omega)]

theorem packWord_fields (w : CmdWord) : packWord (fieldOp w) (fieldA w) (fieldB w) = w := by
  refine BitVec.eq_of_getLsbD_eq fun i hi => ?_
  rw [packWord_getLsbD _ _ _ _ hi]
  simp only [fieldOp, fieldA, fieldB, BitVec.getLsbD_extractLsb']
  split
  · simp [*]
  · split
    · simp [show i - 16 < 8 by omega, show 16 + (i - 16) = i by omega]
    · simp [show i - 24 < 8 by omega, show 24 + (i - 24) = i by omega]

@[simp] theorem fieldOp_packWord (op a : Byte) (b : Half) : fieldOp (packWord op a b) = op := by
  refine BitVec.eq_of_getLsbD_eq fun i hi => ?_
  rw [fieldOp, BitVec.getLsbD_extractLsb', packWord_getLsbD _ _ _ _ (by omega)]
  simp [hi, show ¬(24 + i < 16) by omega]

@[simp] theorem fieldA_packWord (op a : Byte) (b : Half) : fieldA (packWord op a b) = a := by
  refine BitVec.eq_of_getLsbD_eq fun i hi => ?_
  rw [fieldA, BitVec.getLsbD_extractLsb', packWord_getLsbD _ _ _ _ (by omega)]
  simp [hi, show 16 + i < 24 by omega]

@[simp] theorem fieldB_packWord (op a : Byte) (b : Half) : fieldB (packWord op a b) = b := by
  refine BitVec.eq_of_getLsbD_eq fun i hi => ?_
  rw [fieldB, BitVec.getLsbD_extractLsb', packWord_getLsbD _ _ _ _ (by omega)]
  simp [hi]

theorem fields_and (w m : CmdWord) :
    fieldOp (w &&& m) = fieldOp w &&& fieldOp m ∧ fieldA (w &&& m) = fieldA w &&& fieldA m ∧
      fieldB (w &&& m) = fieldB w &&& fieldB m := by
  refine ⟨?_, ?_, ?_⟩ <;>
    · refine BitVec.eq_of_getLsbD_eq fun i hi => ?_
      simp [fieldOp, fieldA, fieldB, hi]

/-- Two words are equal iff their fields are. -/
theorem word_ext_iff (v w : CmdWord) : v = w ↔ fieldOp v = fieldOp w ∧ fieldA v = fieldA w ∧ fieldB v = fieldB w := by
  refine ⟨fun h => by simp [h], fun ⟨h1, h2, h3⟩ => ?_⟩
  rw [← packWord_fields v, ← packWord_fields w, h1, h2, h3]

/-- When a row selects a word, field by field (R67). -/
theorem OpRow.selects_iff (r : OpRow) (w : CmdWord) :
    r.selects w = true ↔ fieldOp w &&& fieldOp r.mask = fieldOp r.pattern ∧
      fieldA w &&& fieldA r.mask = fieldA r.pattern ∧ fieldB w &&& fieldB r.mask = fieldB r.pattern := by
  obtain ⟨h1, h2, h3⟩ := fields_and w r.mask
  rw [OpRow.selects, beq_iff_eq, word_ext_iff, h1, h2, h3]

/-- Every row's mask covers OP (R71). -/
theorem opRows_mask_op : ∀ r ∈ opRows, fieldOp r.mask = 0xFF := by
  simp only [opRows, List.forall_mem_cons, List.not_mem_nil, false_implies, implies_true, and_true]
  decide

theorem OpRow.selects_op {r : OpRow} (hr : r ∈ opRows) {w : CmdWord} (h : r.selects w = true) :
    fieldOp w = fieldOp r.pattern := by
  have := ((r.selects_iff w).mp h).1
  rwa [opRows_mask_op r hr, show (0xFF : Byte) = BitVec.allOnes 8 from rfl, BitVec.and_allOnes] at this


/-- Only the rows with the word's OP can select it. -/
theorem find_selects_byOp (w : CmdWord) :
    opRows.find? (fun r => r.selects w) = (opRows.filter fun r => fieldOp r.pattern == fieldOp w).find? fun r => r.selects w := by
  rw [List.find?_filter]
  have key : ∀ rs : List OpRow, (∀ r ∈ rs, r ∈ opRows) → rs.find? (fun r => r.selects w) =
      rs.find? fun r => fieldOp r.pattern == fieldOp w && r.selects w := by
    intro rs
    induction rs with
    | nil => exact fun _ => rfl
    | cons r rs ih =>
      intro h
      have ih' := ih fun r' hr' => h r' (List.mem_cons_of_mem _ hr')
      simp only [List.find?]
      cases hs : r.selects w with
      | false => simpa using ih'
      | true => simp [OpRow.selects_op (h r List.mem_cons_self) hs]
  simpa only [Bool.decide_and, Bool.decide_eq_true] using key opRows fun _ h => h

/-- decode once the rows of the word's OP are known to be one row. -/
theorem decode_of_row {w : CmdWord} {text : List Byte} {r : OpRow}
    (hr : (opRows.filter fun r => fieldOp r.pattern == fieldOp w) = [r]) :
    decode w text = if r.selects w then .ok (r.command (fieldA w) (fieldB w) text) else .error .reservedBits := by
  have hany : opRows.any (fun r => fieldOp r.pattern == fieldOp w) = true := by
    have : r ∈ opRows.filter fun r => fieldOp r.pattern == fieldOp w := by rw [hr]; exact List.mem_singleton_self r
    obtain ⟨h1, h2⟩ := List.mem_filter.mp this
    exact List.any_eq_true.mpr ⟨r, h1, h2⟩
  rw [decode, find_selects_byOp, hr]
  cases hs : r.selects w <;> simp [List.find?, hs, hany]

theorem decode_of_no_row {w : CmdWord} {text : List Byte}
    (hr : (opRows.filter fun r => fieldOp r.pattern == fieldOp w) = []) : decode w text = .error .opcode := by
  have hany : opRows.any (fun r => fieldOp r.pattern == fieldOp w) = false := by
    rw [← Bool.not_eq_true, List.any_eq_true]
    rintro ⟨r, h1, h2⟩
    have : r ∈ opRows.filter fun r => fieldOp r.pattern == fieldOp w := List.mem_filter.mpr ⟨h1, h2⟩
    rw [hr] at this
    exact List.not_mem_nil this
  rw [decode, find_selects_byOp, hr]
  simp [hany]

theorem OpRow.selects_iff_of_op {r : OpRow} {w : CmdWord} (hop : fieldOp w = fieldOp r.pattern) (hm : fieldOp r.mask = 0xFF) :
    r.selects w = true ↔ fieldA w &&& fieldA r.mask = fieldA r.pattern ∧ fieldB w &&& fieldB r.mask = fieldB r.pattern := by
  rw [OpRow.selects_iff, hop, hm, show (0xFF : Byte) = BitVec.allOnes 8 from rfl, BitVec.and_allOnes]
  simp

/-- decode of a word whose OP is known to have row r. -/
theorem decode_row {w : CmdWord} {text : List Byte} {op : Byte} (r : OpRow) (hop : fieldOp w = op)
    (hr : (opRows.filter fun r => fieldOp r.pattern == op) = [r]) :
    decode w text = if fieldA w &&& fieldA r.mask = fieldA r.pattern ∧ fieldB w &&& fieldB r.mask = fieldB r.pattern
      then .ok (r.command (fieldA w) (fieldB w) text) else .error .reservedBits := by
  subst hop
  rw [decode_of_row hr]
  have hmem := List.mem_filter.mp (show r ∈ opRows.filter fun r => fieldOp r.pattern == fieldOp w by
    rw [hr]; exact List.mem_singleton_self r)
  have := OpRow.selects_iff_of_op (beq_iff_eq.mp hmem.2).symm (opRows_mask_op r hmem.1)
  simp only [← this]

theorem and_ones8 (a : Byte) : a &&& 0xFF = a := BitVec.and_allOnes
theorem and_ones16 (b : Half) : b &&& 0xFFFF = b := BitVec.and_allOnes

/-! ### What decode answers for each OP of the map (R67) -/

theorem decode_open (w : CmdWord) (text : List Byte) (h : fieldOp w = 0x01) :
    decode w text = if fieldA w = 0 ∧ fieldB w = 0 then .ok (.openSession) else .error .reservedBits := by
  rw [decode_row (op := 0x01) (opRows[0]) h rfl]
  show (if fieldA w &&& 0xFF = 0 ∧ fieldB w &&& 0xFFFF = 0 then Except.ok (Instr.openSession) else _) = _
  rw [and_ones8, and_ones16]

theorem decode_close (w : CmdWord) (text : List Byte) (h : fieldOp w = 0x02) :
    decode w text = if fieldA w = 0 ∧ fieldB w = 0 then .ok (.closeSession) else .error .reservedBits := by
  rw [decode_row (op := 0x02) (opRows[1]) h rfl]
  show (if fieldA w &&& 0xFF = 0 ∧ fieldB w &&& 0xFFFF = 0 then Except.ok (Instr.closeSession) else _) = _
  rw [and_ones8, and_ones16]

theorem decode_clear (w : CmdWord) (text : List Byte) (h : fieldOp w = 0x14) :
    decode w text = if fieldA w = 0 ∧ fieldB w = 0 then .ok (.clear) else .error .reservedBits := by
  rw [decode_row (op := 0x14) (opRows[6]) h rfl]
  show (if fieldA w &&& 0xFF = 0 ∧ fieldB w &&& 0xFFFF = 0 then Except.ok (Instr.clear) else _) = _
  rw [and_ones8, and_ones16]

theorem decode_flush (w : CmdWord) (text : List Byte) (h : fieldOp w = 0x20) :
    decode w text = if fieldA w = 0 ∧ fieldB w = 0 then .ok (.flush) else .error .reservedBits := by
  rw [decode_row (op := 0x20) (opRows[7]) h rfl]
  show (if fieldA w &&& 0xFF = 0 ∧ fieldB w &&& 0xFFFF = 0 then Except.ok (Instr.flush) else _) = _
  rw [and_ones8, and_ones16]

theorem decode_save (w : CmdWord) (text : List Byte) (h : fieldOp w = 0x30) :
    decode w text = if fieldA w = 0 ∧ fieldB w = 0 then .ok (.save) else .error .reservedBits := by
  rw [decode_row (op := 0x30) (opRows[8]) h rfl]
  show (if fieldA w &&& 0xFF = 0 ∧ fieldB w &&& 0xFFFF = 0 then Except.ok (Instr.save) else _) = _
  rw [and_ones8, and_ones16]

theorem decode_load (w : CmdWord) (text : List Byte) (h : fieldOp w = 0x31) :
    decode w text = if fieldA w = 0 ∧ fieldB w = 0 then .ok (.load text) else .error .reservedBits := by
  rw [decode_row (op := 0x31) (opRows[9]) h rfl]
  show (if fieldA w &&& 0xFF = 0 ∧ fieldB w &&& 0xFFFF = 0 then Except.ok (Instr.load text) else _) = _
  rw [and_ones8, and_ones16]

theorem decode_sym (w : CmdWord) (text : List Byte) (h : fieldOp w = 0x10) :
    decode w text = if fieldB w &&& 0xFFFE = 0 then .ok (.sym (fieldA w) (subOn (fieldB w))) else .error .reservedBits := by
  rw [decode_row (op := 0x10) (opRows[2]) h rfl]
  show (if fieldA w &&& 0#8 = 0#8 ∧ fieldB w &&& 0xFFFE = 0 then Except.ok (Instr.sym (fieldA w) (subOn (fieldB w))) else _) = _
  simp only [BitVec.and_zero, true_and]

theorem decode_tdig (w : CmdWord) (text : List Byte) (h : fieldOp w = 0x11) :
    decode w text = if fieldB w &&& 0xFF00 = 0 then .ok (.tdig (fieldA w) (subM8 (fieldB w))) else .error .reservedBits := by
  rw [decode_row (op := 0x11) (opRows[3]) h rfl]
  show (if fieldA w &&& 0#8 = 0#8 ∧ fieldB w &&& 0xFF00 = 0 then Except.ok (Instr.tdig (fieldA w) (subM8 (fieldB w))) else _) = _
  simp only [BitVec.and_zero, true_and]

theorem decode_tchr (w : CmdWord) (text : List Byte) (h : fieldOp w = 0x12) :
    decode w text = .ok (.tchr (fieldA w) (fieldB w)) := by
  rw [decode_row (op := 0x12) (opRows[4]) h rfl]
  show (if fieldA w &&& 0#8 = 0#8 ∧ fieldB w &&& 0#16 = 0#16 then Except.ok (Instr.tchr (fieldA w) (fieldB w)) else _) = _
  simp only [BitVec.and_zero, and_self, if_true]

theorem decode_bchr (w : CmdWord) (text : List Byte) (h : fieldOp w = 0x13) :
    decode w text = .ok (.bchr (fieldA w) (fieldB w)) := by
  rw [decode_row (op := 0x13) (opRows[5]) h rfl]
  show (if fieldA w &&& 0#8 = 0#8 ∧ fieldB w &&& 0#16 = 0#16 then Except.ok (Instr.bchr (fieldA w) (fieldB w)) else _) = _
  simp only [BitVec.and_zero, and_self, if_true]

theorem decode_getkey (w : CmdWord) (text : List Byte) (h : fieldOp w = 0x40) :
    decode w text = if fieldA w = 0 then .ok (.getkey (fieldB w)) else .error .reservedBits := by
  rw [decode_row (op := 0x40) (opRows[10]) h rfl]
  show (if fieldA w &&& 0xFF = 0 ∧ fieldB w &&& 0#16 = 0#16 then Except.ok (Instr.getkey (fieldB w)) else _) = _
  rw [and_ones8, BitVec.and_zero]
  simp only [and_true]

theorem decode_fontd (w : CmdWord) (text : List Byte) (h : fieldOp w = 0x50) :
    decode w text = if fieldB w = 0 then .ok (.fontd (fieldA w)) else .error .reservedBits := by
  rw [decode_row (op := 0x50) (opRows[11]) h rfl]
  show (if fieldA w &&& 0#8 = 0#8 ∧ fieldB w &&& 0xFFFF = 0 then Except.ok (Instr.fontd (fieldA w)) else _) = _
  rw [and_ones16, BitVec.and_zero]
  simp only [true_and]

theorem decode_fontc (w : CmdWord) (text : List Byte) (h : fieldOp w = 0x51) :
    decode w text = if fieldB w = 0 then .ok (.fontc (fieldA w)) else .error .reservedBits := by
  rw [decode_row (op := 0x51) (opRows[12]) h rfl]
  show (if fieldA w &&& 0#8 = 0#8 ∧ fieldB w &&& 0xFFFF = 0 then Except.ok (Instr.fontc (fieldA w)) else _) = _
  rw [and_ones16, BitVec.and_zero]
  simp only [true_and]

/-- The OP values of the map. -/
def legalOps : List Byte := opRows.map fun r => fieldOp r.pattern

/-- A word whose OP is not in the map (R69). -/
theorem decode_illegalOp (w : CmdWord) (text : List Byte) (h : fieldOp w ∉ legalOps) : decode w text = .error .opcode := by
  refine decode_of_no_row (List.filter_eq_nil_iff.mpr fun r hr he => h ?_)
  rw [← beq_iff_eq.mp he]
  exact List.mem_map.mpr ⟨r, hr, rfl⟩

end Sys2Proof
end

