-- ==== Sys2Proof/Laws/State.lean ====
section
/-! SUPPORT. One lemma for each field of State and each named update, all true by unfolding it once: no later proof unfolds a record update. -/

namespace Sys2Proof.Machine

variable (s : State)

@[simp] theorem State.complete_cfg (st : Status) (d : RespData) : (s.complete st d).cfg = s.cfg := rfl
@[simp] theorem State.complete_phase (st : Status) (d : RespData) : (s.complete st d).phase = s.phase := rfl
@[simp] theorem State.complete_buf (st : Status) (d : RespData) : (s.complete st d).buf = s.buf := rfl
@[simp] theorem State.complete_dirty (st : Status) (d : RespData) : (s.complete st d).dirty = s.dirty := rfl
@[simp] theorem State.complete_mon (st : Status) (d : RespData) : (s.complete st d).mon = s.mon := rfl
@[simp] theorem State.complete_chan (st : Status) (d : RespData) : (s.complete st d).chan = s.chan := rfl
@[simp] theorem State.complete_errcnt (st : Status) (d : RespData) : (s.complete st d).errcnt = s.errcnt := rfl
@[simp] theorem State.complete_cidx (st : Status) (d : RespData) : (s.complete st d).cidx = s.cidx + 1 := rfl
@[simp] theorem State.complete_sendlog (st : Status) (d : RespData) : (s.complete st d).sendlog = s.sendlog := rfl
@[simp] theorem State.complete_resp (st : Status) (d : RespData) : (s.complete st d).resp = some { status := st, data := d } := rfl
@[simp] theorem State.complete_port (st : Status) (d : RespData) : (s.complete st d).port = s.port := rfl
@[simp] theorem State.complete_sched (st : Status) (d : RespData) : (s.complete st d).sched = s.sched := rfl
@[simp] theorem State.complete_sends (st : Status) (d : RespData) : (s.complete st d).sends = s.sends := rfl
@[simp] theorem State.complete_reports (st : Status) (d : RespData) : (s.complete st d).reports = s.reports := rfl
@[simp] theorem State.complete_cpWait (st : Status) (d : RespData) : (s.complete st d).cpWait = s.cpWait := rfl
@[simp] theorem State.complete_kmWait (st : Status) (d : RespData) : (s.complete st d).kmWait = s.kmWait := rfl
@[simp] theorem State.complete_ticks (st : Status) (d : RespData) : (s.complete st d).ticks = s.ticks := rfl

@[simp] theorem State.setByte_cfg (a : Nat) (v : Byte) : (s.setByte a v).cfg = s.cfg := rfl
@[simp] theorem State.setByte_phase (a : Nat) (v : Byte) : (s.setByte a v).phase = s.phase := rfl
@[simp] theorem State.setByte_buf (a : Nat) (v : Byte) : (s.setByte a v).buf = s.buf.write a v := rfl
@[simp] theorem State.setByte_dirty (a : Nat) (v : Byte) : (s.setByte a v).dirty = s.dirty := rfl
@[simp] theorem State.setByte_mon (a : Nat) (v : Byte) : (s.setByte a v).mon = s.mon := rfl
@[simp] theorem State.setByte_chan (a : Nat) (v : Byte) : (s.setByte a v).chan = s.chan := rfl
@[simp] theorem State.setByte_errcnt (a : Nat) (v : Byte) : (s.setByte a v).errcnt = s.errcnt := rfl
@[simp] theorem State.setByte_cidx (a : Nat) (v : Byte) : (s.setByte a v).cidx = s.cidx := rfl
@[simp] theorem State.setByte_sendlog (a : Nat) (v : Byte) : (s.setByte a v).sendlog = s.sendlog := rfl
@[simp] theorem State.setByte_resp (a : Nat) (v : Byte) : (s.setByte a v).resp = s.resp := rfl
@[simp] theorem State.setByte_port (a : Nat) (v : Byte) : (s.setByte a v).port = s.port := rfl
@[simp] theorem State.setByte_sched (a : Nat) (v : Byte) : (s.setByte a v).sched = s.sched := rfl
@[simp] theorem State.setByte_sends (a : Nat) (v : Byte) : (s.setByte a v).sends = s.sends := rfl
@[simp] theorem State.setByte_reports (a : Nat) (v : Byte) : (s.setByte a v).reports = s.reports := rfl
@[simp] theorem State.setByte_cpWait (a : Nat) (v : Byte) : (s.setByte a v).cpWait = s.cpWait := rfl
@[simp] theorem State.setByte_kmWait (a : Nat) (v : Byte) : (s.setByte a v).kmWait = s.kmWait := rfl
@[simp] theorem State.setByte_ticks (a : Nat) (v : Byte) : (s.setByte a v).ticks = s.ticks := rfl

@[simp] theorem State.markDirty_cfg (i : Nat) : (s.markDirty i).cfg = s.cfg := rfl
@[simp] theorem State.markDirty_phase (i : Nat) : (s.markDirty i).phase = s.phase := rfl
@[simp] theorem State.markDirty_buf (i : Nat) : (s.markDirty i).buf = s.buf := rfl
@[simp] theorem State.markDirty_dirty (i : Nat) : (s.markDirty i).dirty = s.dirty ||| (1#7 <<< i) := rfl
@[simp] theorem State.markDirty_mon (i : Nat) : (s.markDirty i).mon = s.mon := rfl
@[simp] theorem State.markDirty_chan (i : Nat) : (s.markDirty i).chan = s.chan := rfl
@[simp] theorem State.markDirty_errcnt (i : Nat) : (s.markDirty i).errcnt = s.errcnt := rfl
@[simp] theorem State.markDirty_cidx (i : Nat) : (s.markDirty i).cidx = s.cidx := rfl
@[simp] theorem State.markDirty_sendlog (i : Nat) : (s.markDirty i).sendlog = s.sendlog := rfl
@[simp] theorem State.markDirty_resp (i : Nat) : (s.markDirty i).resp = s.resp := rfl
@[simp] theorem State.markDirty_port (i : Nat) : (s.markDirty i).port = s.port := rfl
@[simp] theorem State.markDirty_sched (i : Nat) : (s.markDirty i).sched = s.sched := rfl
@[simp] theorem State.markDirty_sends (i : Nat) : (s.markDirty i).sends = s.sends := rfl
@[simp] theorem State.markDirty_reports (i : Nat) : (s.markDirty i).reports = s.reports := rfl
@[simp] theorem State.markDirty_cpWait (i : Nat) : (s.markDirty i).cpWait = s.cpWait := rfl
@[simp] theorem State.markDirty_kmWait (i : Nat) : (s.markDirty i).kmWait = s.kmWait := rfl
@[simp] theorem State.markDirty_ticks (i : Nat) : (s.markDirty i).ticks = s.ticks := rfl

@[simp] theorem State.setDirty_cfg (d : BitVec 7) : (s.setDirty d).cfg = s.cfg := rfl
@[simp] theorem State.setDirty_phase (d : BitVec 7) : (s.setDirty d).phase = s.phase := rfl
@[simp] theorem State.setDirty_buf (d : BitVec 7) : (s.setDirty d).buf = s.buf := rfl
@[simp] theorem State.setDirty_dirty (d : BitVec 7) : (s.setDirty d).dirty = d := rfl
@[simp] theorem State.setDirty_mon (d : BitVec 7) : (s.setDirty d).mon = s.mon := rfl
@[simp] theorem State.setDirty_chan (d : BitVec 7) : (s.setDirty d).chan = s.chan := rfl
@[simp] theorem State.setDirty_errcnt (d : BitVec 7) : (s.setDirty d).errcnt = s.errcnt := rfl
@[simp] theorem State.setDirty_cidx (d : BitVec 7) : (s.setDirty d).cidx = s.cidx := rfl
@[simp] theorem State.setDirty_sendlog (d : BitVec 7) : (s.setDirty d).sendlog = s.sendlog := rfl
@[simp] theorem State.setDirty_resp (d : BitVec 7) : (s.setDirty d).resp = s.resp := rfl
@[simp] theorem State.setDirty_port (d : BitVec 7) : (s.setDirty d).port = s.port := rfl
@[simp] theorem State.setDirty_sched (d : BitVec 7) : (s.setDirty d).sched = s.sched := rfl
@[simp] theorem State.setDirty_sends (d : BitVec 7) : (s.setDirty d).sends = s.sends := rfl
@[simp] theorem State.setDirty_reports (d : BitVec 7) : (s.setDirty d).reports = s.reports := rfl
@[simp] theorem State.setDirty_cpWait (d : BitVec 7) : (s.setDirty d).cpWait = s.cpWait := rfl
@[simp] theorem State.setDirty_kmWait (d : BitVec 7) : (s.setDirty d).kmWait = s.kmWait := rfl
@[simp] theorem State.setDirty_ticks (d : BitVec 7) : (s.setDirty d).ticks = s.ticks := rfl

@[simp] theorem State.logSend_cfg (i : Fin 7) (o : SendOutcome) : (s.logSend i o).cfg = s.cfg := rfl
@[simp] theorem State.logSend_phase (i : Fin 7) (o : SendOutcome) : (s.logSend i o).phase = s.phase := rfl
@[simp] theorem State.logSend_buf (i : Fin 7) (o : SendOutcome) : (s.logSend i o).buf = s.buf := rfl
@[simp] theorem State.logSend_dirty (i : Fin 7) (o : SendOutcome) : (s.logSend i o).dirty = s.dirty := rfl
@[simp] theorem State.logSend_mon (i : Fin 7) (o : SendOutcome) : (s.logSend i o).mon = s.mon := rfl
@[simp] theorem State.logSend_chan (i : Fin 7) (o : SendOutcome) : (s.logSend i o).chan = s.chan := rfl
@[simp] theorem State.logSend_errcnt (i : Fin 7) (o : SendOutcome) : (s.logSend i o).errcnt = s.errcnt := rfl
@[simp] theorem State.logSend_cidx (i : Fin 7) (o : SendOutcome) : (s.logSend i o).cidx = s.cidx := rfl
@[simp] theorem State.logSend_sendlog (i : Fin 7) (o : SendOutcome) : (s.logSend i o).sendlog =
    s.sendlog ++ [{ seq := s.sendlog.length, index := i, bytes := s.buffer i, outcome := o }] := rfl
@[simp] theorem State.logSend_resp (i : Fin 7) (o : SendOutcome) : (s.logSend i o).resp = s.resp := rfl
@[simp] theorem State.logSend_port (i : Fin 7) (o : SendOutcome) : (s.logSend i o).port = s.port := rfl
@[simp] theorem State.logSend_sched (i : Fin 7) (o : SendOutcome) : (s.logSend i o).sched = s.sched := rfl
@[simp] theorem State.logSend_sends (i : Fin 7) (o : SendOutcome) : (s.logSend i o).sends = s.sends.tail := rfl
@[simp] theorem State.logSend_reports (i : Fin 7) (o : SendOutcome) : (s.logSend i o).reports = s.reports := rfl
@[simp] theorem State.logSend_cpWait (i : Fin 7) (o : SendOutcome) : (s.logSend i o).cpWait = s.cpWait := rfl
@[simp] theorem State.logSend_kmWait (i : Fin 7) (o : SendOutcome) : (s.logSend i o).kmWait = s.kmWait := rfl
@[simp] theorem State.logSend_ticks (i : Fin 7) (o : SendOutcome) : (s.logSend i o).ticks = s.ticks := rfl

@[simp] theorem State.cleared_cfg : (s.cleared).cfg = s.cfg := by simp only [State.cleared]
@[simp] theorem State.cleared_phase : (s.cleared).phase = s.phase := by simp only [State.cleared]
@[simp] theorem State.cleared_buf : (s.cleared).buf = s.buf.zeroPayload := by simp only [State.cleared]
@[simp] theorem State.cleared_dirty : (s.cleared).dirty = allDirty := by simp only [State.cleared]
@[simp] theorem State.cleared_mon : (s.cleared).mon = s.mon := by simp only [State.cleared]
@[simp] theorem State.cleared_chan : (s.cleared).chan = s.chan := by simp only [State.cleared]
@[simp] theorem State.cleared_errcnt : (s.cleared).errcnt = s.errcnt := by simp only [State.cleared]
@[simp] theorem State.cleared_cidx : (s.cleared).cidx = s.cidx := by simp only [State.cleared]
@[simp] theorem State.cleared_sendlog : (s.cleared).sendlog = s.sendlog := by simp only [State.cleared]
@[simp] theorem State.cleared_resp : (s.cleared).resp = s.resp := by simp only [State.cleared]
@[simp] theorem State.cleared_port : (s.cleared).port = s.port := by simp only [State.cleared]
@[simp] theorem State.cleared_sched : (s.cleared).sched = s.sched := by simp only [State.cleared]
@[simp] theorem State.cleared_sends : (s.cleared).sends = s.sends := by simp only [State.cleared]
@[simp] theorem State.cleared_reports : (s.cleared).reports = s.reports := by simp only [State.cleared]
@[simp] theorem State.cleared_cpWait : (s.cleared).cpWait = s.cpWait := by simp only [State.cleared]
@[simp] theorem State.cleared_kmWait : (s.cleared).kmWait = s.kmWait := by simp only [State.cleared]
@[simp] theorem State.cleared_ticks : (s.cleared).ticks = s.ticks := by simp only [State.cleared]

@[simp] theorem State.advance_cfg : (s.advance).cfg = s.cfg := rfl
@[simp] theorem State.advance_phase : (s.advance).phase = s.phase := rfl
@[simp] theorem State.advance_buf : (s.advance).buf = s.buf := rfl
@[simp] theorem State.advance_dirty : (s.advance).dirty = s.dirty := rfl
@[simp] theorem State.advance_mon : (s.advance).mon = s.mon := rfl
@[simp] theorem State.advance_chan : (s.advance).chan = s.chan := rfl
@[simp] theorem State.advance_errcnt : (s.advance).errcnt = s.errcnt := rfl
@[simp] theorem State.advance_cidx : (s.advance).cidx = s.cidx := rfl
@[simp] theorem State.advance_sendlog : (s.advance).sendlog = s.sendlog := rfl
@[simp] theorem State.advance_resp : (s.advance).resp = s.resp := rfl
@[simp] theorem State.advance_port : (s.advance).port = s.port := rfl
@[simp] theorem State.advance_sched : (s.advance).sched = s.sched.tail := rfl
@[simp] theorem State.advance_sends : (s.advance).sends = s.sends := rfl
@[simp] theorem State.advance_reports : (s.advance).reports = s.reports := rfl
@[simp] theorem State.advance_cpWait : (s.advance).cpWait = s.cpWait := rfl
@[simp] theorem State.advance_kmWait : (s.advance).kmWait = s.kmWait := rfl
@[simp] theorem State.advance_ticks : (s.advance).ticks = s.ticks + 1 := rfl

@[simp] theorem State.opened_cfg : (s.opened).cfg = s.cfg := rfl
@[simp] theorem State.opened_phase : (s.opened).phase = .opened := rfl
@[simp] theorem State.opened_buf : (s.opened).buf = Memory.ofTemplate s.cfg.data.template := rfl
@[simp] theorem State.opened_dirty : (s.opened).dirty = 0 := rfl
@[simp] theorem State.opened_mon : (s.opened).mon = .running := rfl
@[simp] theorem State.opened_chan : (s.opened).chan = .empty := rfl
@[simp] theorem State.opened_errcnt : (s.opened).errcnt = 0 := rfl
@[simp] theorem State.opened_cidx : (s.opened).cidx = s.cidx := rfl
@[simp] theorem State.opened_sendlog : (s.opened).sendlog = s.sendlog := rfl
@[simp] theorem State.opened_resp : (s.opened).resp = s.resp := rfl
@[simp] theorem State.opened_port : (s.opened).port = s.port := rfl
@[simp] theorem State.opened_sched : (s.opened).sched = s.sched := rfl
@[simp] theorem State.opened_sends : (s.opened).sends = s.sends := rfl
@[simp] theorem State.opened_reports : (s.opened).reports = s.reports := rfl
@[simp] theorem State.opened_cpWait : (s.opened).cpWait = s.cpWait := rfl
@[simp] theorem State.opened_kmWait : (s.opened).kmWait = false := rfl
@[simp] theorem State.opened_ticks : (s.opened).ticks = s.ticks := rfl

@[simp] theorem State.shut_cfg : (s.shut).cfg = s.cfg := rfl
@[simp] theorem State.shut_phase : (s.shut).phase = .closed := rfl
@[simp] theorem State.shut_buf : (s.shut).buf = [] := rfl
@[simp] theorem State.shut_dirty : (s.shut).dirty = 0 := rfl
@[simp] theorem State.shut_mon : (s.shut).mon = .stopped := rfl
@[simp] theorem State.shut_chan : (s.shut).chan = .empty := rfl
@[simp] theorem State.shut_errcnt : (s.shut).errcnt = 0 := rfl
@[simp] theorem State.shut_cidx : (s.shut).cidx = s.cidx := rfl
@[simp] theorem State.shut_sendlog : (s.shut).sendlog = s.sendlog := rfl
@[simp] theorem State.shut_resp : (s.shut).resp = s.resp := rfl
@[simp] theorem State.shut_port : (s.shut).port = s.port := rfl
@[simp] theorem State.shut_sched : (s.shut).sched = s.sched := rfl
@[simp] theorem State.shut_sends : (s.shut).sends = s.sends := rfl
@[simp] theorem State.shut_reports : (s.shut).reports = s.reports := rfl
@[simp] theorem State.shut_cpWait : (s.shut).cpWait = s.cpWait := rfl
@[simp] theorem State.shut_kmWait : (s.shut).kmWait = false := rfl
@[simp] theorem State.shut_ticks : (s.shut).ticks = s.ticks := rfl

@[simp] theorem State.writeBit_cfg (r : SegRef) (on : Bool) : (s.writeBit r on).cfg = s.cfg := rfl
@[simp] theorem State.writeBit_phase (r : SegRef) (on : Bool) : (s.writeBit r on).phase = s.phase := rfl
@[simp] theorem State.writeBit_mon (r : SegRef) (on : Bool) : (s.writeBit r on).mon = s.mon := rfl
@[simp] theorem State.writeBit_chan (r : SegRef) (on : Bool) : (s.writeBit r on).chan = s.chan := rfl
@[simp] theorem State.writeBit_errcnt (r : SegRef) (on : Bool) : (s.writeBit r on).errcnt = s.errcnt := rfl
@[simp] theorem State.writeBit_cidx (r : SegRef) (on : Bool) : (s.writeBit r on).cidx = s.cidx := rfl
@[simp] theorem State.writeBit_sendlog (r : SegRef) (on : Bool) : (s.writeBit r on).sendlog = s.sendlog := rfl
@[simp] theorem State.writeBit_resp (r : SegRef) (on : Bool) : (s.writeBit r on).resp = s.resp := rfl
@[simp] theorem State.writeBit_port (r : SegRef) (on : Bool) : (s.writeBit r on).port = s.port := rfl
@[simp] theorem State.writeBit_sched (r : SegRef) (on : Bool) : (s.writeBit r on).sched = s.sched := rfl
@[simp] theorem State.writeBit_sends (r : SegRef) (on : Bool) : (s.writeBit r on).sends = s.sends := rfl
@[simp] theorem State.writeBit_reports (r : SegRef) (on : Bool) : (s.writeBit r on).reports = s.reports := rfl
@[simp] theorem State.writeBit_cpWait (r : SegRef) (on : Bool) : (s.writeBit r on).cpWait = s.cpWait := rfl
@[simp] theorem State.writeBit_kmWait (r : SegRef) (on : Bool) : (s.writeBit r on).kmWait = s.kmWait := rfl
@[simp] theorem State.writeBit_ticks (r : SegRef) (on : Bool) : (s.writeBit r on).ticks = s.ticks := rfl

@[simp] theorem State.loadByte_cfg (j : Nat) (v : Byte) : (s.loadByte j v).cfg = s.cfg := by
  unfold State.loadByte; split <;> rfl
@[simp] theorem State.loadByte_phase (j : Nat) (v : Byte) : (s.loadByte j v).phase = s.phase := by
  unfold State.loadByte; split <;> rfl
@[simp] theorem State.loadByte_mon (j : Nat) (v : Byte) : (s.loadByte j v).mon = s.mon := by
  unfold State.loadByte; split <;> rfl
@[simp] theorem State.loadByte_chan (j : Nat) (v : Byte) : (s.loadByte j v).chan = s.chan := by
  unfold State.loadByte; split <;> rfl
@[simp] theorem State.loadByte_errcnt (j : Nat) (v : Byte) : (s.loadByte j v).errcnt = s.errcnt := by
  unfold State.loadByte; split <;> rfl
@[simp] theorem State.loadByte_cidx (j : Nat) (v : Byte) : (s.loadByte j v).cidx = s.cidx := by
  unfold State.loadByte; split <;> rfl
@[simp] theorem State.loadByte_sendlog (j : Nat) (v : Byte) : (s.loadByte j v).sendlog = s.sendlog := by
  unfold State.loadByte; split <;> rfl
@[simp] theorem State.loadByte_resp (j : Nat) (v : Byte) : (s.loadByte j v).resp = s.resp := by
  unfold State.loadByte; split <;> rfl
@[simp] theorem State.loadByte_port (j : Nat) (v : Byte) : (s.loadByte j v).port = s.port := by
  unfold State.loadByte; split <;> rfl
@[simp] theorem State.loadByte_sched (j : Nat) (v : Byte) : (s.loadByte j v).sched = s.sched := by
  unfold State.loadByte; split <;> rfl
@[simp] theorem State.loadByte_sends (j : Nat) (v : Byte) : (s.loadByte j v).sends = s.sends := by
  unfold State.loadByte; split <;> rfl
@[simp] theorem State.loadByte_reports (j : Nat) (v : Byte) : (s.loadByte j v).reports = s.reports := by
  unfold State.loadByte; split <;> rfl
@[simp] theorem State.loadByte_cpWait (j : Nat) (v : Byte) : (s.loadByte j v).cpWait = s.cpWait := by
  unfold State.loadByte; split <;> rfl
@[simp] theorem State.loadByte_kmWait (j : Nat) (v : Byte) : (s.loadByte j v).kmWait = s.kmWait := by
  unfold State.loadByte; split <;> rfl
@[simp] theorem State.loadByte_ticks (j : Nat) (v : Byte) : (s.loadByte j v).ticks = s.ticks := by
  unfold State.loadByte; split <;> rfl

@[simp] theorem State.dirtyAfterFailure_cfg : s.dirtyAfterFailure.cfg = s.cfg := by
  unfold State.dirtyAfterFailure; split <;> rfl
@[simp] theorem State.dirtyAfterFailure_phase : s.dirtyAfterFailure.phase = s.phase := by
  unfold State.dirtyAfterFailure; split <;> rfl
@[simp] theorem State.dirtyAfterFailure_buf : s.dirtyAfterFailure.buf = s.buf := by
  unfold State.dirtyAfterFailure; split <;> rfl
@[simp] theorem State.dirtyAfterFailure_mon : s.dirtyAfterFailure.mon = s.mon := by
  unfold State.dirtyAfterFailure; split <;> rfl
@[simp] theorem State.dirtyAfterFailure_chan : s.dirtyAfterFailure.chan = s.chan := by
  unfold State.dirtyAfterFailure; split <;> rfl
@[simp] theorem State.dirtyAfterFailure_errcnt : s.dirtyAfterFailure.errcnt = s.errcnt := by
  unfold State.dirtyAfterFailure; split <;> rfl
@[simp] theorem State.dirtyAfterFailure_cidx : s.dirtyAfterFailure.cidx = s.cidx := by
  unfold State.dirtyAfterFailure; split <;> rfl
@[simp] theorem State.dirtyAfterFailure_sendlog : s.dirtyAfterFailure.sendlog = s.sendlog := by
  unfold State.dirtyAfterFailure; split <;> rfl
@[simp] theorem State.dirtyAfterFailure_resp : s.dirtyAfterFailure.resp = s.resp := by
  unfold State.dirtyAfterFailure; split <;> rfl
@[simp] theorem State.dirtyAfterFailure_port : s.dirtyAfterFailure.port = s.port := by
  unfold State.dirtyAfterFailure; split <;> rfl
@[simp] theorem State.dirtyAfterFailure_sched : s.dirtyAfterFailure.sched = s.sched := by
  unfold State.dirtyAfterFailure; split <;> rfl
@[simp] theorem State.dirtyAfterFailure_sends : s.dirtyAfterFailure.sends = s.sends := by
  unfold State.dirtyAfterFailure; split <;> rfl
@[simp] theorem State.dirtyAfterFailure_reports : s.dirtyAfterFailure.reports = s.reports := by
  unfold State.dirtyAfterFailure; split <;> rfl
@[simp] theorem State.dirtyAfterFailure_cpWait : s.dirtyAfterFailure.cpWait = s.cpWait := by
  unfold State.dirtyAfterFailure; split <;> rfl
@[simp] theorem State.dirtyAfterFailure_kmWait : s.dirtyAfterFailure.kmWait = s.kmWait := by
  unfold State.dirtyAfterFailure; split <;> rfl
@[simp] theorem State.dirtyAfterFailure_ticks : s.dirtyAfterFailure.ticks = s.ticks := by
  unfold State.dirtyAfterFailure; split <;> rfl

end Sys2Proof.Machine
end

