-- ==== Sys2Proof/Laws/Memory.lean ====
section
/-! SUPPORT. The laws of the buffer space: a read after a write, and every memory operation keeps the canonical form. -/

namespace Sys2Proof.Machine

/-! ### Reads after writes -/

theorem Memory.read_cons_ne (m : Memory) (a : Nat) (v : Byte) (x : Nat) (h : x ≠ a) :
    (Memory.cons a v m).read x = m.read x := by
  unfold Memory.cons
  split <;> simp [Memory.read, h]

theorem Memory.read_write_ne (m : Memory) (a : Nat) (v : Byte) (x : Nat) (h : x ≠ a) :
    (m.write a v).read x = m.read x := by
  induction m with
  | nil => exact Memory.read_cons_ne [] a v x h
  | cons c m ih =>
    obtain ⟨b, w⟩ := c
    simp only [Memory.write]
    split
    · exact Memory.read_cons_ne _ a v x h
    · split
      · rename_i hab
        rw [Memory.read_cons_ne _ a v x h]
        simp [Memory.read, ← hab, h]
      · simp only [Memory.read, ih]

/-- Every listed address of a canonical memory's tail lies above its head's. -/
theorem Memory.wf_tail_above {c : Host.Cell} {m : Memory} (h : Memory.wf (c :: m)) : ∀ d ∈ m, c.1 < d.1 :=
  (List.pairwise_cons.mp h.1).1

theorem Memory.wf_tail {c : Host.Cell} {m : Memory} (h : Memory.wf (c :: m)) : Memory.wf m :=
  ⟨(List.pairwise_cons.mp h.1).2, fun d hd => h.2 d (List.mem_cons_of_mem _ hd)⟩

theorem Memory.read_below (m : Memory) (x : Nat) (h : ∀ d ∈ m, x < d.1) : m.read x = Memory.unlisted := by
  induction m with
  | nil => rfl
  | cons c m ih =>
    obtain ⟨b, w⟩ := c
    have hb : x < b := h (b, w) List.mem_cons_self
    simp only [Memory.read, if_neg (Nat.ne_of_lt hb)]
    exact ih fun d hd => h d (List.mem_cons_of_mem _ hd)

theorem Memory.read_cons_eq (m : Memory) (a : Nat) (v : Byte) (h : ∀ d ∈ m, a < d.1) :
    (Memory.cons a v m).read a = v := by
  unfold Memory.cons
  split
  · rename_i hv
    rw [hv]
    exact m.read_below a h
  · simp [Memory.read]

theorem Memory.read_write_eq (m : Memory) (h : m.wf) (a : Nat) (v : Byte) : (m.write a v).read a = v := by
  induction m with
  | nil => exact Memory.read_cons_eq [] a v (by simp)
  | cons c m ih =>
    obtain ⟨b, w⟩ := c
    have above := Memory.wf_tail_above h
    simp only [Memory.write]
    split
    · rename_i hab
      refine Memory.read_cons_eq _ a v fun d hd => ?_
      rcases List.mem_cons.mp hd with rfl | hd
      · exact hab
      · exact Nat.lt_trans hab (above d hd)
    · split
      · rename_i hab
        subst hab
        exact Memory.read_cons_eq _ a v above
      · rename_i hne
        simp only [Memory.read, if_neg hne]
        exact ih (Memory.wf_tail h)

/-- A read after a write, at any address. -/
theorem Memory.read_write (m : Memory) (h : m.wf) (a : Nat) (v : Byte) (x : Nat) :
    (m.write a v).read x = if x = a then v else m.read x := by
  split
  · rename_i hx
    rw [hx]
    exact m.read_write_eq h a v
  · rename_i hx
    exact m.read_write_ne a v x hx

/-! ### The canonical form is kept -/

/-- The cells of a written memory are old ones or the written one. -/
theorem Memory.mem_write {m : Memory} {a : Nat} {v : Byte} {d : Host.Cell} (h : d ∈ m.write a v) :
    d ∈ m ∨ (d = (a, v) ∧ v ≠ Memory.unlisted) := by
  have cons_case : ∀ {m : Memory}, d ∈ Memory.cons a v m → d ∈ m ∨ (d = (a, v) ∧ v ≠ Memory.unlisted) := by
    intro m hd
    unfold Memory.cons at hd
    split at hd
    · exact .inl hd
    · rename_i hv
      rcases List.mem_cons.mp hd with hd | hd
      · exact .inr ⟨hd, hv⟩
      · exact .inl hd
  induction m with
  | nil => exact cons_case h
  | cons c m ih =>
    obtain ⟨b, w⟩ := c
    simp only [Memory.write] at h
    split at h
    · exact cons_case h
    · split at h
      · rcases cons_case h with h | h
        · exact .inl (List.mem_cons_of_mem _ h)
        · exact .inr h
      · rcases List.mem_cons.mp h with rfl | h
        · exact .inl List.mem_cons_self
        · rcases ih h with h | h
          · exact .inl (List.mem_cons_of_mem _ h)
          · exact .inr h

theorem Memory.cons_wf {m : Memory} {a : Nat} {v : Byte} (h : m.wf) (hm : ∀ d ∈ m, a < d.1) :
    (Memory.cons a v m).wf := by
  unfold Memory.cons
  split
  · exact h
  · rename_i hv
    refine ⟨List.pairwise_cons.mpr ⟨hm, h.1⟩, fun d hd => ?_⟩
    rcases List.mem_cons.mp hd with rfl | hd
    · exact hv
    · exact h.2 d hd

theorem Memory.nil_wf : Memory.wf [] := by decide

theorem Memory.write_wf {m : Memory} (h : m.wf) (a : Nat) (v : Byte) : (m.write a v).wf := by
  induction m with
  | nil => exact Memory.cons_wf Memory.nil_wf (by simp)
  | cons c m ih =>
    obtain ⟨b, w⟩ := c
    have above := Memory.wf_tail_above h
    simp only [Memory.write]
    split
    · rename_i hab
      refine Memory.cons_wf h fun d hd => ?_
      rcases List.mem_cons.mp hd with rfl | hd
      · exact hab
      · exact Nat.lt_trans hab (above d hd)
    · split
      · rename_i hab
        subst hab
        exact Memory.cons_wf (Memory.wf_tail h) above
      · rename_i hlt hne
        have tail := ih (Memory.wf_tail h)
        refine ⟨List.pairwise_cons.mpr ⟨fun d hd => ?_, tail.1⟩, fun d hd => ?_⟩
        · rcases Memory.mem_write hd with hd | ⟨rfl, -⟩
          · exact above d hd
          · show b < a
            omega
        · rcases List.mem_cons.mp hd with rfl | hd
          · exact h.2 _ List.mem_cons_self
          · exact tail.2 d hd

/-- Two canonical memories that read the same everywhere are equal. -/
theorem Memory.ext_of_read {m n : Memory} (hm : m.wf) (hn : n.wf) (h : ∀ x, m.read x = n.read x) : m = n := by
  have nil_case : ∀ {m : Memory}, m.wf → (∀ x, m.read x = Memory.unlisted) → m = [] := by
    intro m hm hr
    cases m with
    | nil => rfl
    | cons c m =>
      obtain ⟨b, w⟩ := c
      have := hr b
      simp only [Memory.read, if_pos] at this
      exact absurd this (hm.2 _ List.mem_cons_self)
  induction m generalizing n with
  | nil => exact (nil_case hn fun x => (h x).symm).symm
  | cons c m ih =>
    cases n with
    | nil => exact nil_case hm h
    | cons d n =>
      obtain ⟨b, w⟩ := c
      obtain ⟨b', w'⟩ := d
      have am := Memory.wf_tail_above hm
      have an := Memory.wf_tail_above hn
      have hb := h b
      have hb' := h b'
      simp only [Memory.read, if_pos] at hb hb'
      have hbb : b = b' := by
        rcases Nat.lt_trichotomy b b' with hlt | heq | hlt
        · rw [if_neg (Nat.ne_of_lt hlt), Memory.read_below n b fun d hd => Nat.lt_trans hlt (an d hd)] at hb
          exact absurd hb (hm.2 _ List.mem_cons_self)
        · exact heq
        · rw [if_neg (Nat.ne_of_lt hlt), Memory.read_below m b' fun d hd => Nat.lt_trans hlt (am d hd)] at hb'
          exact absurd hb'.symm (hn.2 _ List.mem_cons_self)
      subst hbb
      simp only [if_pos] at hb
      subst hb
      congr 1
      refine ih (Memory.wf_tail hm) (Memory.wf_tail hn) fun x => ?_
      by_cases hx : x = b
      · subst hx
        rw [Memory.read_below m x am, Memory.read_below n x an]
      · have := h x
        simpa only [Memory.read, if_neg hx] using this

/-! ### Lists of writes -/

theorem Memory.writeList_wf {m : Memory} (h : m.wf) (a : Nat) (vs : List Byte) : (m.writeList a vs).wf := by
  induction vs generalizing m a with
  | nil => exact h
  | cons v vs ih => exact ih (Memory.write_wf h a v) (a + 1)

theorem Memory.read_writeList (m : Memory) (h : m.wf) (a : Nat) (vs : List Byte) (x : Nat) :
    (m.writeList a vs).read x = if a ≤ x then (vs[x - a]?).getD (m.read x) else m.read x := by
  induction vs generalizing m a with
  | nil => simp [Memory.writeList]
  | cons v vs ih =>
    rw [Memory.writeList, ih _ (Memory.write_wf h a v), m.read_write h]
    rcases Nat.lt_trichotomy x a with hx | hx | hx
    · rw [if_neg (by omega), if_neg (by omega), if_neg (by omega)]
    · subst hx
      simp
    · rw [if_pos (show a + 1 ≤ x by omega), if_pos (show a ≤ x by omega), if_neg (show x ≠ a by omega)]
      obtain ⟨d, rfl⟩ : ∃ d, x = a + 1 + d := ⟨x - (a + 1), by omega⟩
      have h1 : a + 1 + d - (a + 1) = d := by omega
      have h2 : a + 1 + d - a = d + 1 := by omega
      rw [h1, h2, List.getElem?_cons_succ]

theorem Memory.mem_writeList {m : Memory} {a : Nat} {vs : List Byte} {d : Host.Cell} (h : d ∈ m.writeList a vs) :
    d ∈ m ∨ (a ≤ d.1 ∧ d.1 < a + vs.length) := by
  induction vs generalizing m a with
  | nil => exact .inl h
  | cons v vs ih =>
    rcases ih h with h | h
    · rcases Memory.mem_write h with h | ⟨rfl, -⟩
      · exact .inl h
      · exact .inr ⟨Nat.le_refl a, by simp⟩
    · exact .inr ⟨by omega, by simp only [List.length_cons]; omega⟩

/-- A fold of writes of one value, at any address. -/
theorem Memory.read_foldl_write (as : List Nat) (m : Memory) (h : m.wf) (v : Byte) (x : Nat) :
    (as.foldl (fun m a => Memory.write m a v) m).read x = if x ∈ as then v else m.read x := by
  induction as generalizing m with
  | nil => simp
  | cons a as ih =>
    rw [List.foldl_cons, ih _ (Memory.write_wf h a v), m.read_write h]
    by_cases h1 : x ∈ as <;> by_cases h2 : x = a <;> simp [h1, h2]

theorem Memory.foldl_write_wf (as : List Nat) {m : Memory} (h : m.wf) (v : Byte) :
    (as.foldl (fun m a => Memory.write m a v) m).wf := by
  induction as generalizing m with
  | nil => exact h
  | cons a as ih => exact ih (Memory.write_wf h a v)

theorem Memory.read_foldl_write_not_mem (as : List Nat) (m : Memory) (v : Byte) (x : Nat) (hx : x ∉ as) :
    (as.foldl (fun m a => Memory.write m a v) m).read x = m.read x := by
  induction as generalizing m with
  | nil => rfl
  | cons a as ih =>
    rw [List.foldl_cons, ih _ (fun hm => hx (List.mem_cons_of_mem _ hm)),
      m.read_write_ne a v x (fun he => hx (he ▸ List.mem_cons_self))]

theorem mem_payloadAddresses {a : Nat} : a ∈ payloadAddresses ↔ a < bufferSpace ∧ 3 ≤ a % 8 := by
  simp [payloadAddresses]

theorem Memory.zeroPayload_wf {m : Memory} (h : m.wf) : m.zeroPayload.wf := by
  rw [Memory.zeroPayload]
  exact Memory.foldl_write_wf _ h 0

/-- What CLEAR leaves at any address. -/
theorem Memory.read_zeroPayload (m : Memory) (h : m.wf) (x : Nat) :
    m.zeroPayload.read x = if x < bufferSpace ∧ 3 ≤ x % 8 then 0 else m.read x := by
  rw [Memory.zeroPayload, Memory.read_foldl_write _ _ h]
  simp only [mem_payloadAddresses]

theorem Memory.read_zeroPayload_header (m : Memory) (x : Nat) (hx : ¬(x < bufferSpace ∧ 3 ≤ x % 8)) :
    m.zeroPayload.read x = m.read x := by
  rw [Memory.zeroPayload]
  exact Memory.read_foldl_write_not_mem _ _ _ _ fun h => hx (mem_payloadAddresses.mp h)

theorem Memory.mem_zeroPayload {m : Memory} {d : Host.Cell} (h : d ∈ m.zeroPayload) : d ∈ m := by
  have key : ∀ (as : List Nat) (m : Memory), d ∈ as.foldl (fun m a => Memory.write m a 0) m → d ∈ m := by
    intro as
    induction as with
    | nil => exact fun m h => h
    | cons a as ih =>
      intro m h
      rcases Memory.mem_write (ih _ h) with h | ⟨-, h⟩
      · exact h
      · exact absurd rfl h
  rw [Memory.zeroPayload] at h
  exact key _ m h

/-! ### The template -/

theorem Memory.ofTemplate_wf (t : Vector Bytes8 7) : (Memory.ofTemplate t).wf :=
  Memory.writeList_wf Memory.nil_wf _ _

theorem templateBytes_length (t : Vector Bytes8 7) : (t.toList.flatMap Vector.toList).length = 56 := by
  simp only [List.length_flatMap, Vector.length_toList]
  simp

/-- Byte k of row i stands at place 8i + k of the template's bytes. -/
theorem templateBytes_get (t : Vector Bytes8 7) (i : Fin 7) (k : Fin 8) :
    (t.toList.flatMap Vector.toList)[linear i k]? = some t[i][k] := by
  have key : ∀ (rows : List Bytes8) (n : Nat) (h : n < rows.length),
      (rows.flatMap Vector.toList)[8 * n + k.val]? = some rows[n][k] := by
    intro rows
    induction rows with
    | nil => intro n h; simp at h
    | cons r rows ih =>
      intro n h
      rw [List.flatMap_cons]
      cases n with
      | zero =>
        rw [List.getElem?_append_left (by simp)]
        simp
      | succ n =>
        rw [List.getElem?_append_right (by simp; omega)]
        have hn : 8 * (n + 1) + k.val - r.toList.length = 8 * n + k.val := by
          rw [Vector.length_toList]; omega
        rw [hn, ih n (by simpa using h)]
        simp
  have := key t.toList i.val (by simp)
  simpa [linear] using this

theorem Memory.read_ofTemplate (t : Vector Bytes8 7) (i : Fin 7) (k : Fin 8) :
    (Memory.ofTemplate t).read (linear i k) = t[i][k] := by
  rw [Memory.ofTemplate, Memory.read_writeList _ Memory.nil_wf, if_pos (Nat.zero_le _), Nat.sub_zero, templateBytes_get,
    Option.getD_some]

theorem Memory.mem_ofTemplate {t : Vector Bytes8 7} {d : Host.Cell} (h : d ∈ Memory.ofTemplate t) :
    d.1 < bufferSpace := by
  rcases Memory.mem_writeList h with h | h
  · exact absurd h (List.not_mem_nil)
  · rw [templateBytes_length] at h
    exact by have := h.2; simpa [bufferSpace] using this

end Sys2Proof.Machine
end

