-- ==== Sys2Proof/Laws/Flush.lean ====
section
/-! SUPPORT. What the sends of a FLUSH do, by the answers the Transport gives (R103, R104, R151). -/

namespace Sys2Proof.Machine

@[simp] theorem State.logSend_buffer (s : State) (i j : Fin 7) (o : SendOutcome) : (s.logSend i o).buffer j = s.buffer j := rfl

theorem State.nextSend_eq_answerAt (s : State) : s.nextSend = s.answerAt 0 := by
  unfold State.nextSend State.answerAt
  cases s.sends <;> rfl

theorem State.logSend_answerAt (s : State) (i : Fin 7) (o : SendOutcome) (n : Nat) :
    (s.logSend i o).answerAt n = s.answerAt (n + 1) := by
  unfold State.answerAt
  rw [State.logSend_sends, State.logSend_sendlog, List.getElem?_tail, List.length_append, List.length_singleton,
    show s.sendlog.length + 1 + n = s.sendlog.length + (n + 1) by omega]

theorem sendRecords_logSend (s : State) (i : Fin 7) (o : SendOutcome) (n : Nat) (rs : List (Fin 7 × SendOutcome)) :
    sendRecords (s.logSend i o) n rs = sendRecords s n rs := by
  induction rs generalizing n with
  | nil => rfl
  | cons r rs ih => simp only [sendRecords, ih, State.logSend_buffer]

theorem State.afterSends_nil (s : State) : s.afterSends [] = s := by
  simp [State.afterSends, sendRecords]

theorem State.afterSends_cons (s : State) (i : Fin 7) (o : SendOutcome) (rs : List (Fin 7 × SendOutcome)) :
    (s.logSend i o).afterSends rs = s.afterSends ((i, o) :: rs) := by
  have h : s.sends.tail.drop rs.length = s.sends.drop (rs.length + 1) := by
    rw [← List.drop_one, List.drop_drop, Nat.add_comm]
  simp only [State.afterSends, State.logSend_sends, State.logSend_sendlog, sendRecords_logSend, h, List.length_append,
    List.length_cons, sendRecords, List.append_assoc, List.singleton_append]
  rfl

/-- Only the buffers whose snapshot bit is set are looked at. -/
theorem flushLoop_filter (snap : BitVec 7) (is : List (Fin 7)) (s : State) :
    flushLoop snap is s = flushLoop snap (is.filter fun i => snap.getLsbD i) s := by
  induction is generalizing s with
  | nil => rfl
  | cons i is ih =>
    cases hi : snap.getLsbD i with
    | true =>
      simp only [List.filter_cons, hi, if_true, flushLoop]
      split <;> first | exact ih _ | rfl
    | false =>
      simp only [List.filter_cons, hi, flushLoop]
      exact ih s

/-- The first sends answered Ok are logged, and the loop goes on with the rest. -/
theorem flushLoop_answered (snap : BitVec 7) (pre rest : List (Fin 7)) (s : State)
    (hset : ∀ i ∈ pre, snap.getLsbD i = true) (hok : ∀ n, n < pre.length → s.answerAt n = some .ok) :
    flushLoop snap (pre ++ rest) s = flushLoop snap rest (s.afterSends (pre.map fun i => (i, SendOutcome.ok))) := by
  induction pre generalizing s with
  | nil => simp [State.afterSends_nil]
  | cons i pre ih =>
    have h0 : s.nextSend = some .ok := by
      rw [s.nextSend_eq_answerAt]
      exact hok 0 (by simp)
    simp only [List.cons_append, flushLoop, hset i List.mem_cons_self, if_true, h0, List.map_cons]
    rw [← State.afterSends_cons]
    exact ih _ (fun j hj => hset j (List.mem_cons_of_mem _ hj)) fun n hn => by
      rw [State.logSend_answerAt]
      exact hok (n + 1) (by simpa using hn)

theorem State.afterSends_answerAt (s : State) (rs : List (Fin 7 × SendOutcome)) (n : Nat) :
    (s.afterSends rs).answerAt n = s.answerAt (rs.length + n) := by
  induction rs generalizing s n with
  | nil => simp [State.afterSends_nil]
  | cons r rs ih =>
    obtain ⟨i, o⟩ := r
    rw [← State.afterSends_cons, ih, State.logSend_answerAt, List.length_cons]
    congr 1; omega

theorem State.afterSends_append (s : State) (rs qs : List (Fin 7 × SendOutcome)) :
    (s.afterSends rs).afterSends qs = s.afterSends (rs ++ qs) := by
  induction rs generalizing s with
  | nil => simp [State.afterSends_nil]
  | cons r rs ih =>
    obtain ⟨i, o⟩ := r
    rw [← State.afterSends_cons, ih, List.cons_append, State.afterSends_cons]

/-- Every send answered Ok: all dirty buffers are sent. -/
theorem flushLoop_allOk (snap : BitVec 7) (s : State) (hok : ∀ n, n < (dirtyIndices snap).length → s.answerAt n = some .ok) :
    flushLoop snap bufferIndices s = .sentAll (s.afterSends ((dirtyIndices snap).map fun i => (i, SendOutcome.ok))) := by
  have h := flushLoop_answered snap (dirtyIndices snap) [] s (fun i hi => (List.mem_filter.mp hi).2) hok
  rw [List.append_nil] at h
  rw [flushLoop_filter]
  exact h

/-- The answer to the send of the first buffer after some answered Ok decides the rest. -/
theorem flushLoop_stopsAt (snap : BitVec 7) (s : State) (pre : List (Fin 7)) (i : Fin 7) (post : List (Fin 7))
    (hd : dirtyIndices snap = pre ++ i :: post) (hok : ∀ n, n < pre.length → s.answerAt n = some .ok) :
    (s.answerAt pre.length = some .transportError → flushLoop snap bufferIndices s =
      .failed i (s.afterSends (pre.map (fun j => (j, SendOutcome.ok)) ++ [(i, .transportError)]))) ∧
    (s.answerAt pre.length = none → flushLoop snap bufferIndices s =
      .waiting i { s.afterSends (pre.map fun j => (j, SendOutcome.ok)) with sends := s.sends.drop (pre.length + 1) }) := by
  have hset : ∀ j ∈ pre ++ i :: post, snap.getLsbD j = true := fun j hj =>
    (List.mem_filter.mp (show j ∈ dirtyIndices snap by rw [hd]; exact hj)).2
  have h := flushLoop_answered snap pre (i :: post) s (fun j hj => hset j (List.mem_append_left _ hj)) hok
  rw [← hd] at h
  have hi := hset i (List.mem_append_right _ List.mem_cons_self)
  have hans : (s.afterSends (pre.map fun j => (j, SendOutcome.ok))).nextSend = s.answerAt pre.length := by
    rw [State.nextSend_eq_answerAt, State.afterSends_answerAt, List.length_map, Nat.add_zero]
  have hstart : flushLoop snap bufferIndices s = flushLoop snap (dirtyIndices snap) s := flushLoop_filter snap bufferIndices s
  constructor
  · intro ha
    rw [hstart, h]
    simp only [flushLoop, hi, if_true, hans, ha]
    rw [← State.afterSends_append, ← State.afterSends_cons, State.afterSends_nil]
  · intro ha
    rw [hstart, h]
    simp only [flushLoop, hi, if_true, hans, ha]
    have : (s.afterSends (pre.map fun j => (j, SendOutcome.ok))).sends.tail = s.sends.drop (pre.length + 1) := by
      simp [State.afterSends, List.tail_drop]
    rw [this]

/-- What FLUSH's loop leaves, whatever the answers: only the answers used up and the send log differ. -/
theorem flushLoop_frame (snap : BitVec 7) (is : List (Fin 7)) (s : State) :
    (flushLoop snap is s).state =
      { s with sends := (flushLoop snap is s).state.sends, sendlog := (flushLoop snap is s).state.sendlog } := by
  induction is generalizing s with
  | nil => rfl
  | cons i is ih =>
    simp only [flushLoop]
    split
    · split
      · rw [ih (s.logSend i .ok)]
        rfl
      · rfl
      · rfl
    · exact ih s

/-- Either every one of the coming sends of a list is answered Ok, or there is a first one that is not. -/
theorem answers_split (ds : List (Fin 7)) (s : State) :
    (∀ n, n < ds.length → s.answerAt n = some .ok) ∨
      ∃ pre i post, ds = pre ++ i :: post ∧ (∀ n, n < pre.length → s.answerAt n = some .ok) ∧
        (s.answerAt pre.length = some .transportError ∨ s.answerAt pre.length = none) := by
  induction ds using List.reverseRecOn with
  | nil => exact .inl fun n hn => absurd hn (Nat.not_lt_zero n)
  | append_singleton ds i ih =>
    rcases ih with h | ⟨pre, j, post, hd, hok, hne⟩
    · match hc : s.answerAt ds.length with
      | some .ok =>
        refine .inl fun n hn => ?_
        rw [List.length_append, List.length_singleton] at hn
        rcases Nat.lt_or_ge n ds.length with hl | hl
        · exact h n hl
        · rw [show n = ds.length by omega, hc]
      | some .transportError => exact .inr ⟨ds, i, [], rfl, h, .inl hc⟩
      | none => exact .inr ⟨ds, i, [], rfl, h, .inr hc⟩
    · exact .inr ⟨pre, j, post ++ [i], by rw [hd]; simp, hok, hne⟩

/-- Everything FLUSH can do while a session is open (R103, R104, R151). -/
theorem execFlush_cases (s : State) (ho : s.phase = .opened) :
    ((∀ n, n < (dirtyIndices s.dirty).length → s.answerAt n = some .ok) ∧
      execFlush s = returnOk .none
        ((s.afterSends ((dirtyIndices s.dirty).map fun i => (i, SendOutcome.ok))).setDirty 0)) ∨
    ∃ pre i post, dirtyIndices s.dirty = pre ++ i :: post ∧ (∀ n, n < pre.length → s.answerAt n = some .ok) ∧
      ((s.answerAt pre.length = some .transportError ∧
        execFlush s = raise .transportError (BitVec.ofNat 8 i.val)
          (s.afterSends (pre.map (fun j => (j, SendOutcome.ok)) ++ [(i, .transportError)])).dirtyAfterFailure) ∨
       (s.answerAt pre.length = none ∧
        execFlush s = .next { s.afterSends (pre.map fun j => (j, SendOutcome.ok)) with
          sends := s.sends.drop (pre.length + 1), cpWait := some i })) := by
  rcases answers_split (dirtyIndices s.dirty) s with hok | ⟨pre, i, post, hd, hok, hne⟩
  · refine .inl ⟨hok, ?_⟩
    simp only [execFlush, whenOpen, ho, flushLoop_allOk s.dirty s hok]
  · refine .inr ⟨pre, i, post, hd, hok, ?_⟩
    obtain ⟨h1, h2⟩ := flushLoop_stopsAt s.dirty s pre i post hd hok
    rcases hne with ha | ha
    · exact .inl ⟨ha, by simp only [execFlush, whenOpen, ho, h1 ha]⟩
    · exact .inr ⟨ha, by simp only [execFlush, whenOpen, ho, h2 ha]⟩

end Sys2Proof.Machine
end

