-- ==== Sys2Proof/Laws/Setters.lean ====
section
/-! SUPPORT. What a well-formed configuration guarantees of the table lookups (R41), and what the SET_BITs of a setter do. -/

namespace Sys2Proof.Machine

/-! ### The checks of R41, one by one -/

theorem Config.passes (c : Config) (k : ConfigCheck) : c.data.passes k = true := by
  have h := c.ok
  simp only [ConfigData.wf, List.all_eq_true] at h
  exact h k (by cases k <;> decide)

theorem SegRef.valid_iff (r : SegRef) : r.valid = true ↔ 1 ≤ r.id.toNat ∧ r.id.toNat ≤ 7 ∧ r.off < 40 := by
  simp [SegRef.valid]

theorem symRef_valid (c : Config) (n : Nat) (h : n < c.data.nsym) :
    symRef c.data n = some (c.data.symtab[n]'h) ∧ (c.data.symtab[n]'h).valid = true := by
  have hp := Config.passes c .wfRef
  simp only [ConfigData.passes, Bool.and_eq_true, List.all_eq_true] at hp
  exact ⟨List.getElem?_eq_getElem h, hp.1 _ (List.getElem_mem h)⟩

theorem digRef_get (c : ConfigData) (p : Fin 11) (k : Fin 8) : digRef c p k = some c.diglayout[p][k] := by
  simp [digRef]

theorem digRef_valid (c : Config) (p : Fin 11) (k : Fin 8) (h : k ∈ digitIdsRead p) :
    c.data.diglayout[p][k].valid = true := by
  have hp := Config.passes c .wfRef
  simp only [ConfigData.passes, Bool.and_eq_true, List.all_eq_true] at hp
  exact hp.2 p (List.mem_finRange p) k h

theorem mem_charFlagBits {c : ConfigData} {f : Nat} : f ∈ charFlagBits c ↔ f < 16 ∧ c.charFlags.getLsbD f = true := by
  simp [charFlagBits]

/-- Exactly 14 flags are resolved (WF_FLAGS14, R98). -/
theorem charFlagBits_length (c : Config) : (charFlagBits c.data).length = 14 := by
  have hp := Config.passes c .wfFlags14
  simp only [ConfigData.passes, beq_iff_eq] at hp
  rw [← hp, charFlagBits, ConfigData.resolvedFlags]
  have : List.range 16 = (List.finRange 16).map Fin.val := by decide
  rw [this, List.filter_map, List.length_map]
  rfl

/-- The number of positions of a character row (R6). -/
def rowPositions : Row → Nat
  | .top => 8
  | .bot => 4

/-- Every resolved flag of every position has a valid SegmentRef (WF_OUTER_ID, WF_CHAR_SPAN, WF_INNER_GROUP). -/
theorem charRef_valid (c : Config) (row : Row) (p : Nat) (hp : p < rowPositions row) (f : Nat) (hf : f < 16)
    (hflag : c.data.charFlags.getLsbD f = true) : ∃ r, charRef c.data row p f = some r ∧ r.valid = true := by
  have hid := Config.passes c .wfOuterId
  have hspan := Config.passes c .wfCharSpan
  have hgroup := Config.passes c .wfInnerGroup
  have hmem : (⟨f, hf⟩ : Fin 16) ∈ c.data.resolvedFlags := by
    simp [ConfigData.resolvedFlags, hflag]
  simp only [ConfigData.passes, Bool.and_eq_true, List.all_eq_true, decide_eq_true_eq, spanOk] at hid hspan hgroup
  have hg := hgroup _ hmem
  cases row with
  | top =>
    have hp' : p < 8 := hp
    have hmemv : c.data.topOuter[p] ∈ c.data.topOuter.toList := by simp
    have h1 := hspan.1 _ hmemv _ hmem
    have hg1 : (c.data.topInner[f]).group < 3 := hg.1
    simp only [Fin.getElem_fin, Vector.getElem?_eq_getElem hg1, decide_eq_true_eq] at h1
    have h2 := hid.1 _ hmemv (c.data.topOuter[p][(c.data.topInner[f]).group]) (by simp)
    refine ⟨{ id := (c.data.topOuter[p][(c.data.topInner[f]).group]).id,
              off := (c.data.topOuter[p][(c.data.topInner[f]).group]).base + (c.data.topInner[f]).delta }, ?_, ?_⟩
    · simp [charRef, innerRef, outerRef, hf, hp', hg1]
    · simp only [OuterRef.idOk, decide_eq_true_eq] at h2
      exact (SegRef.valid_iff _).mpr ⟨h2.1, h2.2, h1⟩
  | bot =>
    have hp' : p < 4 := hp
    have hmemv : c.data.botOuter[p] ∈ c.data.botOuter.toList := by simp
    have h1 := hspan.2 _ hmemv _ hmem
    have hg1 : (c.data.botInner[f]).group < 2 := hg.2
    simp only [Fin.getElem_fin, Vector.getElem?_eq_getElem hg1, decide_eq_true_eq] at h1
    have h2 := hid.2 _ hmemv (c.data.botOuter[p][(c.data.botInner[f]).group]) (by simp)
    refine ⟨{ id := (c.data.botOuter[p][(c.data.botInner[f]).group]).id,
              off := (c.data.botOuter[p][(c.data.botInner[f]).group]).base + (c.data.botInner[f]).delta }, ?_, ?_⟩
    · simp [charRef, innerRef, outerRef, hf, hp', hg1]
    · simp only [OuterRef.idOk, decide_eq_true_eq] at h2
      exact (SegRef.valid_iff _).mpr ⟨h2.1, h2.2, h1⟩

/-! ### SET_BIT -/

/-- SET_BIT writes a payload byte inside the buffer space. -/
theorem segAddress_payload (r : SegRef) (h : r.valid = true) : segAddress r < bufferSpace ∧ 3 ≤ segAddress r % 8 := by
  obtain ⟨h1, h2, h3⟩ := (SegRef.valid_iff r).mp h
  simp only [segAddress, bufferSpace]
  omega

/-- A list of bit writes to make, each with a SegmentRef of its own. -/
def asWrites (ws : List (SegRef × Bool)) : List BitWrite := ws.map fun w => (some w.1, w.2)

/-- SET_BITs on valid SegmentRefs all take effect and the command ends OK: no error comes after a write (R102). -/
theorem setBits_valid (ws : List (SegRef × Bool)) (s : State) (h : ∀ w ∈ ws, w.1.valid = true) :
    setBits (asWrites ws) s = returnOk .none (s.writeBits ws) := by
  induction ws generalizing s with
  | nil => rfl
  | cons w ws ih =>
    obtain ⟨h1, h2, h3⟩ := (SegRef.valid_iff w.1).mp (h w List.mem_cons_self)
    simp only [asWrites, List.map_cons, setBits, if_pos (show 1 ≤ w.1.id.toNat ∧ w.1.id.toNat ≤ 7 from ⟨h1, h2⟩), if_pos h3]
    exact ih _ fun w' hw' => h w' (List.mem_cons_of_mem _ hw')

@[simp] theorem State.writeBit_byteAt (s : State) (r : SegRef) (on : Bool) (a : Nat) :
    (s.writeBit r on).byteAt a =
      (s.buf.write (segAddress r) (putBit (s.byteAt (segAddress r)) (r.off % 8) on)).read a := rfl

theorem State.writeBit_byteAt_ne (s : State) (r : SegRef) (on : Bool) (a : Nat) (h : a ≠ segAddress r) :
    (s.writeBit r on).byteAt a = s.byteAt a :=
  Memory.read_write_ne _ _ _ _ h

theorem State.writeBit_byteAt_eq (s : State) (r : SegRef) (on : Bool) (h : s.buf.wf) :
    (s.writeBit r on).byteAt (segAddress r) = putBit (s.byteAt (segAddress r)) (r.off % 8) on :=
  Memory.read_write_eq _ h _ _

theorem State.writeBit_dirty (s : State) (r : SegRef) (on : Bool) :
    (s.writeBit r on).dirty = s.dirty ||| (1#7 <<< (r.id.toNat - 1)) := rfl

theorem putBit_getLsbD (v : Byte) (b : Nat) (on : Bool) (hb : b < 8) (j : Nat) :
    (putBit v b on).getLsbD j = if j = b then on else v.getLsbD j := by
  unfold putBit
  by_cases hj : j < 8
  · cases on <;> by_cases h : j = b <;> simp [h, hj, hb] <;> omega
  · have hne : j ≠ b := by omega
    rw [if_neg hne, BitVec.getLsbD_of_ge _ _ (by omega), BitVec.getLsbD_of_ge _ _ (by omega)]

/-! ### Lists of SET_BITs: what they write, what they leave -/

theorem State.writeBits_nil (s : State) : s.writeBits [] = s := rfl

theorem State.writeBits_cons (s : State) (w : SegRef × Bool) (ws : List (SegRef × Bool)) :
    s.writeBits (w :: ws) = (s.writeBit w.1 w.2).writeBits ws := rfl

/-- Everything but the buffers and the dirty mask is as it was. -/
theorem State.writeBits_frame (s : State) (ws : List (SegRef × Bool)) :
    s.writeBits ws = { s with buf := (s.writeBits ws).buf, dirty := (s.writeBits ws).dirty } := by
  induction ws generalizing s with
  | nil => rfl
  | cons w ws ih =>
    rw [State.writeBits_cons, ih (s.writeBit w.1 w.2)]
    rfl

/-- A byte no SET_BIT addresses is as it was. -/
theorem State.writeBits_byteAt_ne (s : State) (ws : List (SegRef × Bool)) (a : Nat)
    (h : ∀ w ∈ ws, a ≠ segAddress w.1) : (s.writeBits ws).byteAt a = s.byteAt a := by
  induction ws generalizing s with
  | nil => rfl
  | cons w ws ih =>
    rw [State.writeBits_cons, ih _ fun w' hw' => h w' (List.mem_cons_of_mem _ hw'),
      s.writeBit_byteAt_ne _ _ _ (h w List.mem_cons_self)]

theorem State.writeBits_bufferSpaceWf (s : State) (ws : List (SegRef × Bool)) (h : ∀ w ∈ ws, w.1.valid = true)
    (hs : BufferSpaceWf s) : BufferSpaceWf (s.writeBits ws) := by
  induction ws generalizing s with
  | nil => exact hs
  | cons w ws ih =>
    refine ih _ (fun w' hw' => h w' (List.mem_cons_of_mem _ hw')) ⟨Memory.write_wf hs.1 _ _, fun c hc => ?_⟩
    rcases Memory.mem_write hc with hc | ⟨rfl, -⟩
    · exact hs.2 c hc
    · exact (segAddress_payload _ (h w List.mem_cons_self)).1

/-- The dirty bits a list of SET_BITs leaves: the old ones and those of the buffers named (R93). -/
theorem State.writeBits_dirty (s : State) (ws : List (SegRef × Bool)) (j : Nat) (hj : j < 7) :
    (s.writeBits ws).dirty.getLsbD j = (s.dirty.getLsbD j || ws.any fun w => w.1.id.toNat - 1 == j) := by
  induction ws generalizing s with
  | nil => simp [State.writeBits_nil]
  | cons w ws ih =>
    rw [State.writeBits_cons, ih, State.writeBit_dirty, List.any_cons]
    have : (1#7 <<< (w.1.id.toNat - 1)).getLsbD j = (w.1.id.toNat - 1 == j) := by
      by_cases h : w.1.id.toNat - 1 = j
      · subst h; simp [hj]
      · have : (w.1.id.toNat - 1 == j) = false := by simpa using h
        rw [this]
        simp [hj]
        omega
    rw [BitVec.getLsbD_or, this, Bool.or_assoc]

/-! ### The SET_BITs of each setter -/

theorem mem_strokeIds : ∀ k : Fin 7, (⟨k.val, Nat.lt_succ_of_lt k.isLt⟩ : Fin 8) ∈ ([0, 1, 2, 3, 4, 5, 6] : List (Fin 8)) := by
  decide

theorem digitWrites_valid (c : Config) (p : Nat) (hp : p < 11) (m : Byte) :
    ∃ ws, digitWrites c.data p m = asWrites ws ∧ ∀ w ∈ ws, w.1.valid = true := by
  have h03 : isBar p = true ↔ ((⟨p, hp⟩ : Fin 11) = 0 ∨ (⟨p, hp⟩ : Fin 11) = 3) := by
    simp [isBar, Fin.ext_iff]
  by_cases h : isBar p = true
  · refine ⟨[(c.data.diglayout[p][7], m.getLsbD 7)], ?_, ?_⟩
    · have := digRef_get c.data ⟨p, hp⟩ 7
      simp only [digitWrites, if_pos h, asWrites, List.map_cons, List.map_nil]
      rw [show digRef c.data p 7 = _ from this]
      rfl
    · intro w hw
      rw [List.mem_singleton.mp hw]
      exact digRef_valid c ⟨p, hp⟩ 7 (by rw [digitIdsRead, if_pos (h03.mp h)]; exact List.mem_cons_self)
  · refine ⟨(List.finRange 7).map fun k : Fin 7 => (c.data.diglayout[p][k.val], m.getLsbD k), ?_, ?_⟩
    · have : List.range 7 = (List.finRange 7).map Fin.val := by decide
      simp only [digitWrites, if_neg h, asWrites, List.map_map, this]
      refine List.map_congr_left fun k _ => ?_
      have := digRef_get c.data ⟨p, hp⟩ ⟨k.val, by omega⟩
      simp only [Function.comp]
      rw [show digRef c.data p k.val = _ from this]
      rfl
    · intro w hw
      obtain ⟨k, -, rfl⟩ := List.mem_map.mp hw
      refine digRef_valid c ⟨p, hp⟩ ⟨k.val, by omega⟩ ?_
      rw [digitIdsRead, if_neg (fun hh => h (h03.mpr hh))]
      exact mem_strokeIds k

theorem charWrites_valid (c : Config) (row : Row) (p : Nat) (hp : p < rowPositions row) (m : Half) :
    ∃ ws, charWrites c.data row p m = asWrites ws ∧ ∀ w ∈ ws, w.1.valid = true := by
  have key : ∀ fs : List Nat, (∀ f ∈ fs, f ∈ charFlagBits c.data) →
      ∃ ws, fs.map (fun f => (charRef c.data row p f, (couple m).getLsbD f)) = asWrites ws ∧ ∀ w ∈ ws, w.1.valid = true := by
    intro fs
    induction fs with
    | nil => exact fun _ => ⟨[], rfl, by simp⟩
    | cons f fs ih =>
      intro h
      obtain ⟨ws, h1, h2⟩ := ih fun f' hf' => h f' (List.mem_cons_of_mem _ hf')
      obtain ⟨hf, hflag⟩ := mem_charFlagBits.mp (h f List.mem_cons_self)
      obtain ⟨r, hr, hv⟩ := charRef_valid c row p hp f hf hflag
      refine ⟨(r, (couple m).getLsbD f) :: ws, ?_, ?_⟩
      · rw [List.map_cons, h1, hr]
        rfl
      · intro w hw
        rcases List.mem_cons.mp hw with rfl | hw
        · exact hv
        · exact h2 w hw
  exact key _ fun _ h => h

end Sys2Proof.Machine
end

