-- ==== Sys2Proof/Laws/Text.lean ====
section
/-! SUPPORT. The persisted-state text: what the tokeniser answers, that it reads back what SAVE renders, and what LOAD's loop
writes. -/

namespace Sys2Proof.Machine

/-! ### The tokeniser (R83) -/

theorem tokensFrom_append (t : List Byte) (ht : ∀ b ∈ t, isSpace b = false) (rest cur : List Byte) :
    tokensFrom (t ++ rest) cur = tokensFrom rest (t.reverse ++ cur) := by
  induction t generalizing cur with
  | nil => rfl
  | cons b t ih =>
    simp only [List.cons_append, tokensFrom, ht b List.mem_cons_self]
    rw [if_neg (by simp), ih fun b' hb' => ht b' (List.mem_cons_of_mem _ hb')]
    simp

/-- A token, a whitespace byte, and the rest. -/
theorem tokenize_token_space (t : List Byte) (hne : t ≠ []) (ht : ∀ b ∈ t, isSpace b = false) (w : Byte)
    (hw : isSpace w = true) (rest : List Byte) : tokenize (t ++ w :: rest) = t :: tokenize rest := by
  have hr : (t.reverse ++ []).isEmpty = false := by simp [hne]
  simp only [tokenize, tokensFrom_append t ht, tokensFrom, hw, if_true, hr]
  simp

theorem tokenize_space (w : Byte) (hw : isSpace w = true) (rest : List Byte) : tokenize (w :: rest) = tokenize rest := by
  simp [tokenize, tokensFrom, hw]

theorem tokenize_nil : tokenize [] = [] := rfl

theorem tokenize_token (t : List Byte) (hne : t ≠ []) (ht : ∀ b ∈ t, isSpace b = false) : tokenize t = [t] := by
  have h := tokensFrom_append t ht [] []
  rw [List.append_nil] at h
  rw [tokenize, h]
  simp [tokensFrom, hne]

/-! ### Reading back what SAVE renders (R82, R122) -/

theorem hexDigit_not_space : ∀ n, n < 16 → isSpace (hexDigit n) = false := by decide

theorem hexValue_hexDigit : ∀ n, n < 16 → hexValue (hexDigit n) = some n := by decide

theorem renderToken_not_space (v : Byte) : ∀ b ∈ renderToken v, isSpace b = false := by
  have h1 := hexDigit_not_space (v.toNat / 16) (by have := v.isLt; omega)
  have h2 := hexDigit_not_space (v.toNat % 16) (by omega)
  intro b hb
  simp only [renderToken, List.mem_cons, List.not_mem_nil, or_false] at hb
  rcases hb with rfl | rfl | rfl | rfl
  · decide
  · decide
  · exact h1
  · exact h2

theorem tokenValue_renderToken (v : Byte) : tokenValue (renderToken v) = some v := by
  have h1 := hexValue_hexDigit (v.toNat / 16) (by have := v.isLt; omega)
  have h2 := hexValue_hexDigit (v.toNat % 16) (by omega)
  have h3 : 16 * (v.toNat / 16) + v.toNat % 16 = v.toNat := by omega
  simp only [tokenValue, renderToken, h1, h2, h3]
  simp

theorem tokenize_renderLine (vs : List Byte) (rest : List Byte) :
    tokenize (renderLine vs ++ rest) = vs.map renderToken ++ tokenize rest := by
  have hne : ∀ v, renderToken v ≠ [] := fun v => by simp [renderToken]
  induction vs with
  | nil => exact tokenize_space _ (by decide) _
  | cons v vs ih =>
    cases vs with
    | nil =>
      simp only [renderLine, List.append_assoc, List.cons_append, List.nil_append, List.map_cons, List.map_nil]
      exact tokenize_token_space _ (hne v) (renderToken_not_space v) _ (by decide) _
    | cons w vs =>
      rw [renderLine, List.append_assoc, List.cons_append,
        tokenize_token_space _ (hne v) (renderToken_not_space v) _ (by decide), ih]
      rfl

/-- The tokens of a rendered text are the tokens of its bytes, in order. -/
theorem tokenize_renderText (lines : List (List Byte)) : tokenize (renderText lines) = lines.flatten.map renderToken := by
  have key : ∀ rest, tokenize (renderText lines ++ rest) = lines.flatten.map renderToken ++ tokenize rest := by
    intro rest
    induction lines with
    | nil => rfl
    | cons l lines ih =>
      rw [renderText, List.flatMap_cons, List.append_assoc, tokenize_renderLine, List.flatten_cons, List.map_append,
        List.append_assoc]
      exact congrArg _ ih
  simpa [tokenize_nil] using key []

theorem goodValues_renderToken (vs : List Byte) (n : Nat) (h : n = vs.length) : goodValues n (vs.map renderToken) = vs := by
  induction vs generalizing n with
  | nil => subst h; rfl
  | cons v vs ih =>
    subst h
    simp only [List.length_cons, List.map_cons, goodValues, tokenValue_renderToken]
    rw [ih _ rfl]

/-! ### LOAD's loop (R119) -/

/-- Bytes stored from place j on, header places skipped. -/
def State.loadBytes (s : State) : Nat → List Byte → State
  | _, [] => s
  | j, v :: vs => (s.loadByte j v).loadBytes (j + 1) vs

theorem goodValues_length_le (n : Nat) (ts : List (List Byte)) : (goodValues n ts).length ≤ n := by
  induction n generalizing ts with
  | zero => simp [goodValues]
  | succ n ih =>
    cases ts with
    | nil => simp [goodValues]
    | cons t ts =>
      simp only [goodValues]
      split
      · simpa using ih ts
      · simp

/-- The loop stores the good values, and stops at the first bad or missing token if there is one. -/
theorem loadLoop_eq (n j : Nat) (ts : List (List Byte)) (s : State) :
    loadLoop n j ts s = (s.loadBytes j (goodValues n ts),
      if (goodValues n ts).length = n then none else some (j + (goodValues n ts).length)) := by
  induction n generalizing j ts s with
  | zero => rfl
  | succ n ih =>
    cases ts with
    | nil => simp [loadLoop, goodValues, State.loadBytes]
    | cons t ts =>
      cases h : tokenValue t with
      | none => simp [loadLoop, goodValues, State.loadBytes, h]
      | some v =>
        simp only [loadLoop, goodValues, h, ih, State.loadBytes, List.length_cons, Nat.add_right_cancel_iff]
        rw [show j + 1 + (goodValues n ts).length = j + ((goodValues n ts).length + 1) by omega]

theorem firstBad_eq (n j : Nat) (ts : List (List Byte)) :
    firstBad n j ts = if (goodValues n ts).length = n then none else some (j + (goodValues n ts).length) := by
  induction n generalizing j ts with
  | zero => rfl
  | succ n ih =>
    cases ts with
    | nil => simp [firstBad, goodValues]
    | cons t ts =>
      cases h : tokenValue t with
      | none => simp [firstBad, goodValues, h]
      | some v =>
        simp only [firstBad, goodValues, h, ih, List.length_cons, Nat.add_right_cancel_iff]
        rw [show j + 1 + (goodValues n ts).length = j + ((goodValues n ts).length + 1) by omega]

theorem State.loadByte_frame (s : State) (j : Nat) (v : Byte) :
    s.loadByte j v = { s with buf := (s.loadByte j v).buf, dirty := (s.loadByte j v).dirty } := by
  unfold State.loadByte
  split <;> rfl

theorem State.loadBytes_frame (s : State) (j : Nat) (vs : List Byte) :
    s.loadBytes j vs = { s with buf := (s.loadBytes j vs).buf, dirty := (s.loadBytes j vs).dirty } := by
  induction vs generalizing s j with
  | nil => rfl
  | cons v vs ih =>
    rw [State.loadBytes, ih (s.loadByte j v), s.loadByte_frame]

theorem State.loadByte_bufferSpaceWf (s : State) (j : Nat) (v : Byte) (hj : j < bufferSpace) (h : BufferSpaceWf s) :
    BufferSpaceWf (s.loadByte j v) := by
  unfold State.loadByte
  split
  · refine ⟨Memory.write_wf h.1 _ _, fun c hc => ?_⟩
    rcases Memory.mem_write hc with hc | ⟨rfl, -⟩
    · exact h.2 c hc
    · exact hj
  · exact h

theorem State.loadBytes_bufferSpaceWf (s : State) (j : Nat) (vs : List Byte) (hj : j + vs.length ≤ bufferSpace)
    (h : BufferSpaceWf s) : BufferSpaceWf (s.loadBytes j vs) := by
  induction vs generalizing s j with
  | nil => exact h
  | cons v vs ih =>
    simp only [List.length_cons] at hj
    exact ih _ _ (by omega) (s.loadByte_bufferSpaceWf j v (by omega) h)

theorem State.loadByte_byteAt (s : State) (j : Nat) (v : Byte) (h : s.buf.wf) (x : Nat) :
    (s.loadByte j v).byteAt x = if x = j ∧ 3 ≤ x % 8 then v else s.byteAt x := by
  unfold State.loadByte
  split
  · show (s.buf.write j v).read x = _
    rw [Memory.read_write _ h]
    by_cases hx : x = j
    · subst hx; simp [*]
    · simp only [hx, false_and, if_false]; rfl
  · rw [if_neg (by rintro ⟨rfl, h3⟩; contradiction)]

theorem State.loadByte_wf (s : State) (j : Nat) (v : Byte) (h : s.buf.wf) : (s.loadByte j v).buf.wf := by
  unfold State.loadByte
  split
  · exact Memory.write_wf h _ _
  · exact h

/-- What the stored bytes leave at any address: payload places hold the new values, every other byte is as it was. -/
theorem State.loadBytes_byteAt (s : State) (j : Nat) (vs : List Byte) (h : s.buf.wf) (x : Nat) :
    (s.loadBytes j vs).byteAt x =
      if j ≤ x ∧ 3 ≤ x % 8 then (vs[x - j]?).getD (s.byteAt x) else s.byteAt x := by
  induction vs generalizing s j with
  | nil => simp [State.loadBytes]
  | cons v vs ih =>
    rw [State.loadBytes, ih _ _ (s.loadByte_wf j v h), s.loadByte_byteAt j v h]
    by_cases h3 : 3 ≤ x % 8
    · rcases Nat.lt_trichotomy x j with hx | hx | hx
      · rw [if_neg (by omega), if_neg (by omega), if_neg (by omega)]
      · subst hx
        simp [h3]
      · obtain ⟨d, rfl⟩ : ∃ d, x = j + 1 + d := ⟨x - (j + 1), by omega⟩
        rw [if_pos ⟨by omega, h3⟩, if_pos (show j ≤ j + 1 + d ∧ _ from ⟨by omega, h3⟩), if_neg (show ¬(j + 1 + d = j ∧ _) by omega),
          show j + 1 + d - (j + 1) = d by omega, show j + 1 + d - j = d + 1 by omega, List.getElem?_cons_succ]
    · rw [if_neg (fun hh => h3 hh.2), if_neg (fun hh => h3 hh.2), if_neg (fun hh => h3 hh.2)]

/-- A byte that is no payload place of the stored range is as it was, in any memory. -/
theorem State.loadBytes_byteAt_ne (s : State) (j : Nat) (vs : List Byte) (x : Nat)
    (hx : ¬(j ≤ x ∧ x < j + vs.length ∧ 3 ≤ x % 8)) : (s.loadBytes j vs).byteAt x = s.byteAt x := by
  induction vs generalizing s j with
  | nil => rfl
  | cons v vs ih =>
    simp only [List.length_cons] at hx
    rw [State.loadBytes, ih _ _ (by omega)]
    unfold State.loadByte
    split
    · exact Memory.read_write_ne _ _ _ _ (by rintro rfl; omega)
    · rfl

theorem State.loadByte_dirty_bit (s : State) (j : Nat) (v : Byte) (i : Nat) (hi : i < 7) :
    (s.loadByte j v).dirty.getLsbD i = (s.dirty.getLsbD i || (decide (3 ≤ j % 8) && j / 8 == i)) := by
  unfold State.loadByte
  split
  · rename_i h3
    show (s.dirty ||| (1#7 <<< (j / 8))).getLsbD i = _
    have : (1#7 <<< (j / 8)).getLsbD i = (j / 8 == i) := by
      by_cases h : j / 8 = i
      · simp [h, hi]
      · have : (j / 8 == i) = false := by simpa using h
        rw [this]
        simp [hi]
        omega
    rw [BitVec.getLsbD_or, this]
    simp [h3]
  · simp [*]

/-- The dirty bits the stored bytes leave: the old ones and those of the buffers that got a payload byte (R120). -/
theorem State.loadBytes_dirty (s : State) (j : Nat) (vs : List Byte) (i : Nat) (hi : i < 7) :
    (s.loadBytes j vs).dirty.getLsbD i =
      (s.dirty.getLsbD i || (List.range' j vs.length).any fun x => decide (3 ≤ x % 8) && x / 8 == i) := by
  induction vs generalizing s j with
  | nil => simp [State.loadBytes]
  | cons v vs ih =>
    rw [State.loadBytes, ih, s.loadByte_dirty_bit j v i hi, List.length_cons, List.range'_succ, List.any_cons, Bool.or_assoc]

end Sys2Proof.Machine
end

