-- ==== Sys2Proof/Laws/Exec.lean ====
section
/-! SUPPORT. What each meaning can answer, said once for each, by its cases. -/

namespace Sys2Proof.Machine

theorem whenOpen_opened {s : State} (h : s.phase = .opened) (body : State → Outcome) : whenOpen s body = body s := by
  simp only [whenOpen, h]

theorem whenOpen_closed {s : State} (h : s.phase = .closed) (body : State → Outcome) :
    whenOpen s body = illegal .wrongPhase s := by
  simp only [whenOpen, h]

/-- An open session, or IllegalCommand (R125). -/
theorem whenOpen_cases (s : State) (body : State → Outcome) :
    (s.phase = .opened ∧ whenOpen s body = body s) ∨ (s.phase = .closed ∧ whenOpen s body = illegal .wrongPhase s) := by
  cases h : s.phase with
  | opened => exact .inl ⟨rfl, whenOpen_opened h body⟩
  | closed => exact .inr ⟨rfl, whenOpen_closed h body⟩

/-- What a setter answers: IllegalCommand while Closed, its range error, or OK after its SET_BITs, all of them valid. -/
structure SetterAnswer (s : State) (bad : Prop) (status : Status) (info : Byte) (writes : List BitWrite) (o : Outcome) : Prop where
  cases : (s.phase = .closed ∧ o = illegal .wrongPhase s) ∨
    (s.phase = .opened ∧ bad ∧ o = raise status info s) ∨
    (s.phase = .opened ∧ ¬bad ∧ ∃ ws, writes = asWrites ws ∧ (∀ w ∈ ws, w.1.valid = true) ∧ o = returnOk .none (s.writeBits ws))

theorem setter_answer (s : State) (bad : Prop) [Decidable bad] (status : Status) (info : Byte) (writes : List BitWrite)
    (h : ¬bad → ∃ ws, writes = asWrites ws ∧ ∀ w ∈ ws, w.1.valid = true) :
    SetterAnswer s bad status info writes (whenOpen s fun s => if bad then raise status info s else setBits writes s) := by
  refine ⟨?_⟩
  rcases whenOpen_cases s fun s => if bad then raise status info s else setBits writes s with ⟨ho, hb⟩ | ⟨hc, hb⟩
  · by_cases hbad : bad
    · exact .inr (.inl ⟨ho, hbad, by rw [hb, if_pos hbad]⟩)
    · obtain ⟨ws, hw, hv⟩ := h hbad
      exact .inr (.inr ⟨ho, hbad, ws, hw, hv, by rw [hb, if_neg hbad, hw, setBits_valid ws s hv]⟩)
  · exact .inl ⟨hc, hb⟩

theorem execSym_answer (sym : Byte) (on : Bool) (s : State) :
    SetterAnswer s (s.cfg.data.nsym ≤ sym.toNat) .invalidSymbol sym [(symRef s.cfg.data sym.toNat, on)] (execSym sym on s) :=
  setter_answer s _ _ _ _ fun h => by
    obtain ⟨h1, h2⟩ := symRef_valid s.cfg sym.toNat (Nat.lt_of_not_le h)
    exact ⟨[(_, on)], by rw [h1]; rfl, by simpa using h2⟩

theorem execTdig_answer (pos mask : Byte) (s : State) :
    SetterAnswer s (10 < pos.toNat) .invalidPosition pos (digitWrites s.cfg.data pos.toNat mask) (execTdig pos mask s) :=
  setter_answer s _ _ _ _ fun h => digitWrites_valid s.cfg pos.toNat (by omega) mask

theorem execTchr_answer (pos : Byte) (mask : Half) (s : State) :
    SetterAnswer s (7 < pos.toNat) .invalidPosition pos (charWrites s.cfg.data .top pos.toNat mask) (execTchr pos mask s) :=
  setter_answer s _ _ _ _ fun h => charWrites_valid s.cfg .top pos.toNat (by simp only [rowPositions]; omega) mask

theorem execBchr_answer (pos : Byte) (mask : Half) (s : State) :
    SetterAnswer s (3 < pos.toNat) .invalidPosition pos (charWrites s.cfg.data .bot pos.toNat mask) (execBchr pos mask s) :=
  setter_answer s _ _ _ _ fun h => charWrites_valid s.cfg .bot pos.toNat (by simp only [rowPositions]; omega) mask

/-- The byte a place 0..55 is reported as (R123). -/
def placeByte (n : Nat) : Byte := BitVec.ofNat 8 n

/-- Everything LOAD can answer (R119, R121). -/
theorem execLoad_cases (text : List Byte) (s : State) :
    (s.phase = .closed ∧ execLoad text s = illegal .wrongPhase s) ∨
    (s.phase = .opened ∧ (loadValues text).length = stateTokens ∧ s.cfg.data.policy.loadAtomic = false ∧
      execLoad text s = returnOk .none (s.loadBytes 0 (loadValues text))) ∨
    (s.phase = .opened ∧ (loadValues text).length = stateTokens ∧ s.cfg.data.policy.loadAtomic = true ∧
      execLoad text s = returnOk .none ((s.loadBytes 0 (loadValues text)).setDirty allDirty)) ∨
    (s.phase = .opened ∧ (loadValues text).length < stateTokens ∧ s.cfg.data.policy.loadAtomic = false ∧
      execLoad text s = raise .invalidFormat (placeByte (loadValues text).length) (s.loadBytes 0 (loadValues text))) ∨
    (s.phase = .opened ∧ (loadValues text).length < stateTokens ∧ s.cfg.data.policy.loadAtomic = true ∧
      execLoad text s = raise .invalidFormat (placeByte (loadValues text).length) s) := by
  have hle : (loadValues text).length ≤ stateTokens := goodValues_length_le _ _
  rcases whenOpen_cases s fun s => if s.cfg.data.policy.loadAtomic then loadAtomic text s else loadProgressive text s with
    ⟨ho, hb⟩ | ⟨hc, hb⟩
  · cases ha : s.cfg.data.policy.loadAtomic with
    | false =>
      rw [ha, if_neg Bool.false_ne_true] at hb
      rcases Nat.lt_or_eq_of_le hle with hlt | heq
      · refine .inr (.inr (.inr (.inl ⟨ho, hlt, rfl, hb.trans ?_⟩)))
        simp only [loadProgressive, loadLoop_eq]
        rw [if_neg (show ¬(goodValues stateTokens (tokenize text)).length = stateTokens from Nat.ne_of_lt hlt), Nat.zero_add]
        rfl
      · refine .inr (.inl ⟨ho, heq, rfl, hb.trans ?_⟩)
        simp only [loadProgressive, loadLoop_eq]
        rw [if_pos (show (goodValues stateTokens (tokenize text)).length = stateTokens from heq)]
        rfl
    | true =>
      rw [ha, if_pos rfl] at hb
      rcases Nat.lt_or_eq_of_le hle with hlt | heq
      · refine .inr (.inr (.inr (.inr ⟨ho, hlt, rfl, hb.trans ?_⟩)))
        simp only [loadAtomic, firstBad_eq]
        rw [if_neg (show ¬(goodValues stateTokens (tokenize text)).length = stateTokens from Nat.ne_of_lt hlt), Nat.zero_add]
        rfl
      · refine .inr (.inr (.inl ⟨ho, heq, rfl, hb.trans ?_⟩))
        simp only [loadAtomic, firstBad_eq, loadLoop_eq]
        rw [if_pos (show (goodValues stateTokens (tokenize text)).length = stateTokens from heq)]
        rfl
  · exact .inl ⟨hc, hb⟩

/-- Everything GETKEY can answer (R113). -/
theorem execGetkey_cases (timeout : Half) (s : State) :
    (s.phase = .closed ∧ execGetkey timeout s = illegal .wrongPhase s) ∨
    (s.phase = .opened ∧ ∃ k, s.chan = .full k ∧ execGetkey timeout s = returnOk (.byte k) { s with chan := .empty }) ∨
    (s.phase = .opened ∧ s.chan = .empty ∧ s.mon = .terminated ∧
      execGetkey timeout s = raise .monitorTerminated s.cfg.data.keyErr s) ∨
    (s.phase = .opened ∧ s.chan = .empty ∧ s.mon ≠ .terminated ∧ execGetkey timeout s = raise .idle s.cfg.data.keyIdle s) := by
  cases hp : s.phase with
  | closed => exact .inl ⟨rfl, whenOpen_closed hp _⟩
  | opened =>
    have hb := whenOpen_opened hp fun s =>
      match s.chan with
      | .full k => returnOk (.byte k) { s with chan := .empty }
      | .empty =>
        match s.mon with
        | .terminated => raise .monitorTerminated s.cfg.data.keyErr s
        | .running => raise .idle s.cfg.data.keyIdle s
        | .stopped => raise .idle s.cfg.data.keyIdle s
    refine .inr ?_
    cases hc : s.chan with
    | full k => exact .inl ⟨rfl, k, rfl, hb.trans (by simp only [hc, hp])⟩
    | empty =>
      cases hm : s.mon with
      | terminated => exact .inr (.inl ⟨rfl, rfl, rfl, hb.trans (by simp only [hc, hm])⟩)
      | running => exact .inr (.inr ⟨rfl, rfl, by simp, hb.trans (by simp only [hc, hm])⟩)
      | stopped => exact .inr (.inr ⟨rfl, rfl, by simp, hb.trans (by simp only [hc, hm])⟩)

/-- Everything KM's step can do (R106 to R111). -/
theorem kmStep_cases (s : State) :
    (¬(s.mon = .running ∧ s.kmWait = false) ∧ kmStep s = s) ∨
    (s.mon = .running ∧ s.kmWait = false ∧ s.nextReport = none ∧
      kmStep s = { s with reports := s.reports.tail, kmWait := true }) ∨
    (s.mon = .running ∧ s.kmWait = false ∧ ∃ r, s.nextReport = some r ∧
      kmStep s = State.takeReport { s with reports := s.reports.tail } r) := by
  unfold kmStep
  by_cases h : s.mon = .running ∧ s.kmWait = false
  · rw [if_pos h]
    refine .inr ?_
    cases hr : s.nextReport with
    | none => exact .inl ⟨h.1, h.2, rfl, rfl⟩
    | some r => exact .inr ⟨h.1, h.2, r, rfl, rfl⟩
  · exact .inl ⟨h, if_neg h⟩

/-- KM writes the monitor, the channel, the failure count and its own control point, and nothing else (R112). -/
theorem kmStep_frame (s : State) :
    kmStep s = { s with
      mon := (kmStep s).mon, chan := (kmStep s).chan, errcnt := (kmStep s).errcnt, reports := (kmStep s).reports,
      kmWait := (kmStep s).kmWait } := by
  rcases kmStep_cases s with ⟨-, h⟩ | ⟨-, -, -, h⟩ | ⟨-, -, r, -, h⟩
  · rw [h]
  · rw [h]
  · rw [h]
    unfold State.takeReport
    cases r with
    | timeout => rfl
    | transportError => dsimp only; split <;> rfl
    | report x => dsimp only; split <;> rfl

/-! ### What any command leaves, and what any step does -/

/-- The next state of a command, by what it does; the sends of a FLUSH are `execFlush_cases`. -/
inductive Answer (i : Instr) (s t : State) : Prop where
  /-- The wrong phase (R125). -/
  | gated (hp : (s.phase = .closed ∧ runsClosed i = false) ∨ (s.phase = .opened ∧ i = .openSession))
      (ht : t = s.complete .illegalCommand (.byte 2))
  /-- OPEN (R116). -/
  | opens (hp : s.phase = .closed) (hi : i = .openSession) (ht : t = s.opened.complete .ok .none)
  /-- CLOSE (R117). -/
  | closes (hp : s.phase = .opened) (hi : i = .closeSession) (ht : t = s.shut.complete .ok .none)
  /-- A response and nothing more: a lookup, SAVE, GETKEY with no event, or an error before any write (R127). -/
  | responds (status : Status) (data : RespData) (hp : s.phase = .opened ∨ runsClosed i = true)
      (hi : leavesKeypad i = true ∨ ∃ timeout, i = .getkey timeout) (hst : status ≠ .timeout) (ht : t = s.complete status data)
  /-- GETKEY takes the pending event (R113). -/
  | takesKey (k : Byte) (hp : s.phase = .opened) (hi : ∃ timeout, i = .getkey timeout) (hc : s.chan = .full k)
      (ht : t = State.complete { s with chan := .empty } .ok (.byte k))
  /-- A setter, CLEAR or LOAD writes buffers and dirty bits: no header byte, nothing outside the buffer space (R17, R47). -/
  | writes (status : Status) (data : RespData) (buf : Memory) (dirty : BitVec 7) (hp : s.phase = .opened)
      (hi : leavesKeypad i = true) (hst : status = .ok ∨ status = .invalidFormat)
      (hb : ∀ a, ¬(a < bufferSpace ∧ 3 ≤ a % 8) → buf.read a = s.byteAt a)
      (hw : BufferSpaceWf s → BufferSpaceWf { s with buf := buf })
      (ht : t = State.complete { s with buf := buf, dirty := dirty } status data)
  /-- FLUSH (R103). -/
  | flushes (hp : s.phase = .opened) (hi : i = .flush)

theorem SetterAnswer.answer {i : Instr} {s t : State} {bad : Prop} {status : Status} {info : Byte} {writes : List BitWrite}
    (hk : leavesKeypad i = true) (hr : runsClosed i = false) (hst : status ≠ .timeout)
    (h : SetterAnswer s bad status info writes (.next t)) : Answer i s t := by
  rcases h.cases with ⟨hc, h⟩ | ⟨ho, -, h⟩ | ⟨ho, -, ws, -, hv, h⟩ <;> injection h with h
  · exact .gated (.inl ⟨hc, hr⟩) h
  · exact .responds _ _ (.inl ho) (.inl hk) hst h
  · refine .writes .ok .none (s.writeBits ws).buf (s.writeBits ws).dirty ho hk (.inl rfl) (fun a ha => ?_)
      (fun hb => s.writeBits_bufferSpaceWf ws hv hb) (by rw [h, State.writeBits_frame])
    exact State.writeBits_byteAt_ne s ws a fun w hw he => ha (he ▸ segAddress_payload _ (hv w hw))

/-- What a command whose body completes it without a fault answers, phase by phase. -/
theorem whenOpen_next {s t : State} {body : State → Outcome} (h : whenOpen s body = .next t) :
    (s.phase = .opened ∧ body s = .next t) ∨ (s.phase = .closed ∧ t = s.complete .illegalCommand (.byte 2)) := by
  rcases whenOpen_cases s body with ⟨hp, hb⟩ | ⟨hp, hb⟩
  · exact .inl ⟨hp, hb.symm.trans h⟩
  · have hn := h.symm.trans hb
    injection hn with hn
    exact .inr ⟨hp, hn⟩

/-- Whatever a command answers, it is one of these. -/
theorem exec_answer {i : Instr} {s t : State} (h : exec i s = .next t) : Answer i s t := by
  cases i with
  | openSession =>
    change execOpen s = _ at h
    unfold execOpen whenClosed at h
    split at h <;> injection h with h
    · exact .opens ‹_› rfl h.symm
    · exact .gated (.inr ⟨‹_›, rfl⟩) h.symm
  | closeSession =>
    change execClose s = _ at h
    unfold execClose at h
    rcases whenOpen_next h with ⟨hp, h⟩ | ⟨hp, h⟩
    · injection h with h
      exact .closes hp rfl h.symm
    · exact .gated (.inl ⟨hp, rfl⟩) h
  | sym sym on =>
    have ha := execSym_answer sym on s
    rw [show execSym sym on s = _ from h] at ha
    exact ha.answer rfl rfl (by nofun)
  | tdig pos mask =>
    have ha := execTdig_answer pos mask s
    rw [show execTdig pos mask s = _ from h] at ha
    exact ha.answer rfl rfl (by nofun)
  | tchr pos mask =>
    have ha := execTchr_answer pos mask s
    rw [show execTchr pos mask s = _ from h] at ha
    exact ha.answer rfl rfl (by nofun)
  | bchr pos mask =>
    have ha := execBchr_answer pos mask s
    rw [show execBchr pos mask s = _ from h] at ha
    exact ha.answer rfl rfl (by nofun)
  | clear =>
    change execClear s = _ at h
    unfold execClear at h
    rcases whenOpen_next h with ⟨hp, h⟩ | ⟨hp, h⟩
    · injection h with h
      exact .writes .ok .none s.buf.zeroPayload allDirty hp rfl (.inl rfl) (fun a => Memory.read_zeroPayload_header _ a)
        (fun hb => ⟨Memory.zeroPayload_wf hb.1, fun c hc => hb.2 c (Memory.mem_zeroPayload hc)⟩) h.symm
    · exact .gated (.inl ⟨hp, rfl⟩) h
  | flush =>
    cases hp : s.phase with
    | opened => exact .flushes hp rfl
    | closed =>
      change execFlush s = _ at h
      unfold execFlush at h
      rw [whenOpen_closed hp] at h
      injection h with h
      exact .gated (.inl ⟨hp, rfl⟩) h.symm
  | save =>
    change execSave s = _ at h
    unfold execSave at h
    rcases whenOpen_next h with ⟨hp, h⟩ | ⟨hp, h⟩
    · injection h with h
      exact .responds _ _ (.inl hp) (.inl rfl) (by nofun) h.symm
    · exact .gated (.inl ⟨hp, rfl⟩) h
  | load text =>
    change execLoad text s = _ at h
    have hlen : 0 + (loadValues text).length ≤ bufferSpace := by
      rw [Nat.zero_add]
      exact goodValues_length_le _ _
    have hb : ∀ a, ¬(a < bufferSpace ∧ 3 ≤ a % 8) → (s.loadBytes 0 (loadValues text)).buf.read a = s.byteAt a :=
      fun a ha => State.loadBytes_byteAt_ne s 0 _ a (by omega)
    have hw := s.loadBytes_bufferSpaceWf 0 _ hlen
    rcases execLoad_cases text s with ⟨hp, h'⟩ | ⟨hp, -, -, h'⟩ | ⟨hp, -, -, h'⟩ | ⟨hp, -, -, h'⟩ | ⟨hp, -, -, h'⟩ <;>
      have hn := h.symm.trans h' <;> injection hn with hn
    · exact .gated (.inl ⟨hp, rfl⟩) hn
    · exact .writes .ok .none _ (s.loadBytes 0 (loadValues text)).dirty hp rfl (.inl rfl) hb hw
        (by rw [hn, State.loadBytes_frame])
    · exact .writes .ok .none _ allDirty hp rfl (.inl rfl) hb hw (by rw [hn, State.loadBytes_frame]; rfl)
    · exact .writes .invalidFormat _ _ (s.loadBytes 0 (loadValues text)).dirty hp rfl (.inr rfl) hb hw
        (by rw [hn, State.loadBytes_frame])
    · exact .responds _ _ (.inl hp) (.inl rfl) (by nofun) hn
  | getkey timeout =>
    change execGetkey timeout s = _ at h
    rcases execGetkey_cases timeout s with ⟨hp, h'⟩ | ⟨hp, k, hc, h'⟩ | ⟨hp, -, -, h'⟩ | ⟨hp, -, -, h'⟩ <;>
      have hn := h.symm.trans h' <;> injection hn with hn
    · exact .gated (.inl ⟨hp, rfl⟩) hn
    · exact .takesKey k hp ⟨timeout, rfl⟩ hc hn
    · exact .responds _ _ (.inl hp) (.inr ⟨timeout, rfl⟩) (by nofun) hn
    · exact .responds _ _ (.inl hp) (.inr ⟨timeout, rfl⟩) (by nofun) hn
  | fontd ch =>
    injection h with h
    exact .responds _ _ (.inr rfl) (.inl rfl) (by nofun) h.symm
  | fontc ch =>
    injection h with h
    exact .responds _ _ (.inr rfl) (.inl rfl) (by nofun) h.symm

/-- Everything a step can do (R13, R44, R57). -/
theorem step_cases {s t : State} (h : step s = .next t) :
    (s.nextAgent = .km ∧ t = kmStep s.advance) ∨
    (s.nextAgent = .cp ∧ (s.cpWait ≠ none ∨ s.port = []) ∧ t = s.advance) ∨
    (s.nextAgent = .cp ∧ s.cpWait = none ∧ ∃ c rest, s.port = c :: rest ∧
      ((∃ i, decodeCommand c = .ok i ∧ exec i { s.advance with port := rest } = .next t) ∨
        ∃ why cause, decodeCommand c = .error why ∧
          t = State.complete { s.advance with port := rest } .illegalCommand (.byte cause))) := by
  unfold step stepAs at h
  split at h
  · rename_i ha
    refine .inr ?_
    unfold cpStep at h
    rw [show s.advance.cpWait = s.cpWait from rfl, show s.advance.port = s.port from rfl] at h
    split at h
    · rename_i hw
      injection h with h
      exact .inl ⟨ha, .inl (by rw [hw]; nofun), h.symm⟩
    · rename_i hp
      injection h with h
      exact .inl ⟨ha, .inr hp, h.symm⟩
    · rename_i c rest hw hp
      refine .inr ⟨ha, hw, c, rest, hp, ?_⟩
      split at h
      · exact .inl ⟨_, ‹_›, h⟩
      · rename_i why hd
        cases why <;> injection h with h <;> exact .inr ⟨_, _, hd, h.symm⟩
  · rename_i ha
    injection h with h
    exact .inl ⟨ha, h.symm⟩

end Sys2Proof.Machine
end

