-- ==== Sys2Proof/Laws/PerInstr.lean ====
section
/-! SUPPORT. The family DecodeEncode: the word and text the encoder gives a command decode to that command, for every operand
value (R67, R71, R85). -/

/-- Decoding what the encoder gives for i gives i. -/
def Sys2Proof.Laws.DecodeEncode.Statement (i : Sys2Proof.Instr) : Prop :=
  Sys2Proof.decodeCommand (Sys2Proof.encode i) = .ok i

namespace Sys2Proof.Laws.DecodeEncode

open Sys2Proof

theorem openSession : Statement .openSession := rfl

theorem closeSession : Statement .closeSession := rfl

theorem sym (sym : Byte) (on : Bool) : Statement (.sym sym on) := by
  show decode (packWord 0x10 sym (if on then 1 else 0)) [] = _
  rw [decode_sym _ _ (by simp)]
  cases on <;> simp [subOn]

theorem tdig (pos mask : Byte) : Statement (.tdig pos mask) := by
  show decode (packWord 0x11 pos (mask.setWidth 16)) [] = _
  have hres : mask.setWidth 16 &&& 0xFF00 = (0 : Half) := by
    revert mask
    decide
  have hm : subM8 (mask.setWidth 16) = mask := by
    revert mask
    decide
  rw [decode_tdig _ _ (by simp), fieldB_packWord, if_pos hres, fieldA_packWord, hm]

theorem tchr (pos : Byte) (mask : Half) : Statement (.tchr pos mask) := by
  show decode (packWord 0x12 pos mask) [] = _
  rw [decode_tchr _ _ (by simp), fieldA_packWord, fieldB_packWord]

theorem bchr (pos : Byte) (mask : Half) : Statement (.bchr pos mask) := by
  show decode (packWord 0x13 pos mask) [] = _
  rw [decode_bchr _ _ (by simp), fieldA_packWord, fieldB_packWord]

theorem clear : Statement .clear := rfl

theorem flush : Statement .flush := rfl

theorem save : Statement .save := rfl

theorem load (text : List Byte) : Statement (.load text) := by
  show decode (packWord 0x31 0 0) text = _
  rw [decode_load _ _ (by simp), if_pos (by simp)]

theorem getkey (timeout : Half) : Statement (.getkey timeout) := by
  show decode (packWord 0x40 0 timeout) [] = _
  rw [decode_getkey _ _ (by simp), if_pos (by simp), fieldB_packWord]

theorem fontd (char : Byte) : Statement (.fontd char) := by
  show decode (packWord 0x50 char 0) [] = _
  rw [decode_fontd _ _ (by simp), if_pos (by simp), fieldA_packWord]

theorem fontc (char : Byte) : Statement (.fontc char) := by
  show decode (packWord 0x51 char 0) [] = _
  rw [decode_fontc _ _ (by simp), if_pos (by simp), fieldA_packWord]

end Sys2Proof.Laws.DecodeEncode
end

