-- ==== Sys2Proof/Tests/Slice0.lean ====
section
/-! SUPPORT. Small tests: ill-formed terms that the checks refuse, words and one-step results the spec writes out, and a witness
for the hypotheses of every obligation that has some. Expected values are those of 95_test_vectors.md. -/

namespace Sys2Proof.Tests

open Sys2Proof Sys2Proof.Machine

/-! ### Helpers -/

/-- Fixture TI right after OPEN ("from template"). -/
def opened : State := (State.powerUp Config.fixture).opened

/-- TI at power-up. -/
def closed : State := State.powerUp Config.fixture

/-- TI under other policies. -/
def openedUnder (p : Policy) (h : 1 ≤ p.readErrLimit) : State := (State.powerUp (Config.fixture.withPolicy p h)).opened

/-- FLUSH_KEEP_DIRTY_ON_ERROR = true. -/
def keepDirty : State := openedUnder { Policy.standard with flushKeepDirtyOnError := true } (by decide)

/-- LOAD_ATOMIC = true. -/
def atomicLoad : State := openedUnder { Policy.standard with loadAtomic := true } (by decide)

/-- READ_ERR_LIMIT = 3. -/
def threeErrors : State := openedUnder { Policy.standard with readErrLimit := 3 } (by decide)

/-- The response, the dirty mask and the 8 bytes of one buffer after a command. -/
def after (o : Outcome) (i : Fin 7) : Option (Option Response × BitVec 7 × List Byte) :=
  match o with
  | .next t => some (t.resp, t.dirty, (t.buffer i).toList)
  | .fault _ => none
  | .refused _ => none

/-- The buffers and outcomes a command sent, with the first byte pair of each, its response and the dirty mask after it. -/
def sent (o : Outcome) : Option (List (Fin 7 × SendOutcome) × Option Response × BitVec 7) :=
  match o with
  | .next t => some (t.sendlog.map fun r => (r.index, r.outcome), t.resp, t.dirty)
  | .fault _ => none
  | .refused _ => none

/-- The monitor, the channel and the failure count. -/
def keypad (s : State) : Monitor × Channel × Nat := (s.mon, s.chan, s.errcnt)

/-- The response of a command. -/
def response (o : Outcome) : Option Response :=
  match o with
  | .next t => t.resp
  | .fault _ => none
  | .refused _ => none

/-- A key report of TI with this code. -/
def keyReport (k : Byte) : Bytes8 := #v[0x02, 0x42, 0x00, k, 0, 0, 0, 0]

/-- The bytes of ASCII text. -/
def ascii (cs : List Char) : List Byte := cs.map fun c => BitVec.ofNat 8 c.toNat

/-- A text of n tokens 0x11. -/
def tokens (n : Nat) : List Byte := (List.replicate n [0x30, 0x78, 0x31, 0x31, 0x20]).flatten

/-! ### WellFormed: an ill-formed term for each check (R41, R85, R87) -/

/-- A configuration with one row of TI's template changed. -/
def badTemplate (row : Bytes8) : ConfigData := { fixtureData with template := fixtureTemplate.set 1 row }

theorem test_wf_fixture : fixtureData.failing = [] := by decide

theorem test_wf_templateHdr : (badTemplate #v[0x03, 0x31, 0, 0, 0, 0, 0, 0]).failing = [.wfTemplateHdr] := by decide

theorem test_wf_templateCluster : (badTemplate #v[0x02, 0x30, 0, 0, 0, 0, 0, 0]).failing = [.wfTemplateCluster] := by
  decide

theorem test_wf_ref :
    ({ fixtureData with symtab := [⟨0, 4⟩] } : ConfigData).failing = [.wfRef] ∧
      ({ fixtureData with symtab := [⟨7, 40⟩] } : ConfigData).failing = [.wfRef] := by decide

theorem test_wf_outerId :
    ({ fixtureData with topOuter := fixtureData.topOuter.set 7 #v[⟨1, 0⟩, ⟨2, 0⟩, ⟨8, 0⟩] } : ConfigData).failing = [.wfOuterId] := by
  decide

theorem test_wf_charSpan :
    ({ fixtureData with botOuter := fixtureData.botOuter.set 3 #v[⟨4, 34⟩, ⟨5, 0⟩] } : ConfigData).failing = [.wfCharSpan] := by
  decide

theorem test_wf_innerGroup :
    ({ fixtureData with botInner := fixtureData.botInner.set 15 ⟨2, 0⟩ } : ConfigData).failing = [.wfInnerGroup] := by
  decide

theorem test_wf_flags14 : ({ fixtureData with charFlags := 0xFF3E } : ConfigData).failing = [.wfFlags14] := by decide

theorem test_wf_sym : ({ fixtureData with symtab := List.replicate 257 ⟨7, 0⟩ } : ConfigData).failing = [.wfSym] := by
  decide +kernel

theorem test_wf_sig : ({ fixtureData with keySig := #v[0x02, 0x99, 0x00] } : ConfigData).failing = [.wfSig] := by decide

theorem test_wf_reservedKeys : ({ fixtureData with keyErr := 0xFF } : ConfigData).failing = [.wfReservedKeys] := by decide

theorem test_wf_limit :
    (fixtureData.withPolicy { Policy.standard with readErrLimit := 0 }).failing = [.wfLimit] := by decide

/-- Each operand one past its field, and a string one past its row, is refused (R85, R87). -/
theorem test_wf_lines : ([.sym 256 0, .sym 0 2, .tdig 0 256, .tchr 0 65536, .bchr 256 0, .getkey 65536, .fontd 256, .fontc 256,
    .symon 256, .symoff 256, .tdigc 256 0, .tdigblank 256, .tchrc 256 0, .bchrc 256 0, .tstr 7 [0x41, 0x58],
    .bstr 3 [0x41, 0x58]] : List AsmLine).all (fun l => !l.wf) = true := by decide

/-! ### Decoding: words written out from the map (95_test_vectors.md §3.1, R67) -/

/-- A word from its 32 bits, bit 31 first. -/
def bits (bs : List Nat) : Nat := bs.foldl (fun w b => 2 * w + b) 0

/-- OP 0001_0000, A 0000_0100, B[15:1] 0, on 1. -/
theorem test_decode_sym : decodeTableWord 32 (bits
    ([0,0,0,1, 0,0,0,0] ++ [0,0,0,0, 0,1,0,0] ++ [0,0,0,0, 0,0,0,0] ++ [0,0,0,0, 0,0,0,1])) = some (.sym 4 true) := by
  decide

/-- OP 0001_0001, A 0000_0101, B[15:8] 0, m8 1010_1000. -/
theorem test_decode_tdig : decodeTableWord 32 (bits
    ([0,0,0,1, 0,0,0,1] ++ [0,0,0,0, 0,1,0,1] ++ [0,0,0,0, 0,0,0,0] ++ [1,0,1,0, 1,0,0,0])) = some (.tdig 5 0xA8) := by
  decide

theorem test_decode_map : ([(0x01000000, .openSession), (0x02000000, .closeSession), (0x10040000, .sym 4 false),
    (0x110100A8, .tdig 1 0xA8), (0x1200007D, .tchr 0 0x007D), (0x1303F000, .bchr 3 0xF000), (0x14000000, .clear),
    (0x20000000, .flush), (0x30000000, .save), (0x31000000, .load []), (0x4000000A, .getkey 10), (0x50470000, .fontd 0x47),
    (0x51FF0000, .fontc 0xFF)] : List (Nat × Instr)).all (fun r => decodeTableWord 32 r.1 == some r.2) = true := by decide

theorem test_decode_illegal : ([0x01000001, 0x00000000, 0xFF000000, 0x15000000, 0x10040002, 0x11050100, 0x40010000,
    0x50470001, 0x02010000, 0x14000001, 0x20010000, 0x30000001, 0x31000001, 0x51410001] : List Nat).all
    (fun w => decodeTableWord 32 w == none) = true := by decide

/-! ### One step from a small state (95_test_vectors.md §2, §3) -/

theorem test_sym_18 : after (exec (.sym 18 true) opened) 6 =
    some (some ⟨.ok, .none⟩, 0x40, [0x02, 0x36, 0, 0, 0, 0x04, 0, 0]) := by decide

theorem test_sym_19 : after (exec (.sym 19 true) opened) 6 =
    some (some ⟨.invalidSymbol, .byte 19⟩, 0, [0x02, 0x36, 0, 0, 0, 0, 0, 0]) := by decide

theorem test_tdig_10 : after (exec (.tdig 10 0x6F) opened) 3 =
    some (some ⟨.ok, .none⟩, 0x08, [0x02, 0x33, 0, 0, 0, 0, 0xF0, 0x06]) := by decide

theorem test_tdig_bar : after (exec (.tdig 0 0xA8) opened) 5 =
    some (some ⟨.ok, .none⟩, 0x20, [0x02, 0x35, 0, 0, 0, 0, 0, 0x08]) := by decide

theorem test_tchr_A : after (exec (.tchr 0 0x007D) opened) 1 =
    some (some ⟨.ok, .none⟩, 0x07, [0x02, 0x31, 0, 0x19, 0, 0, 0, 0]) := by decide

theorem test_tchr_coupled : after (exec (.tchr 7 0x0040) opened) 1 =
    some (some ⟨.ok, .none⟩, 0x07, [0x02, 0x31, 0, 0, 0, 0, 0, 0xC0]) := by decide

theorem test_bchr_X : after (exec (.bchr 3 0xF000) opened) 4 =
    some (some ⟨.ok, .none⟩, 0x18, [0x02, 0x34, 0, 0, 0, 0, 0x0F, 0]) := by decide

theorem test_bchr_4 : after (exec (.bchr 4 1) opened) 4 =
    some (some ⟨.invalidPosition, .byte 4⟩, 0, [0x02, 0x34, 0, 0, 0, 0, 0, 0]) := by decide

theorem test_clear : after (exec .clear (opened.setByte 15 0xFF)) 1 =
    some (some ⟨.ok, .none⟩, 0x7F, [0x02, 0x31, 0, 0, 0, 0, 0, 0]) := by decide +kernel

theorem test_open : after (exec .openSession closed) 6 =
    some (some ⟨.ok, .none⟩, 0, [0x02, 0x36, 0, 0, 0, 0, 0, 0]) := by decide

theorem test_close_then_flush : response (exec .flush opened.shut) = some ⟨.illegalCommand, .byte 2⟩ := by decide

theorem test_flush_error : sent (exec .flush { opened with dirty := 0x07, sends := [some .ok, some .transportError] }) =
    some ([(0, .ok), (1, .transportError)], some ⟨.transportError, .byte 1⟩, 0) := by decide

theorem test_flush_keep : sent (exec .flush
      { keepDirty with dirty := 0x7F, sends := [some .ok, some .ok, some .ok, some .transportError] }) =
    some ([(0, .ok), (1, .ok), (2, .ok), (3, .transportError)], some ⟨.transportError, .byte 3⟩, 0x7F) := by decide

/-- Line 5 of the text after TDIG 5, 0x5B (§3.6). -/
theorem test_save_line5 : (((opened.setByte 45 0x60).setByte 46 0x0B).savedText.drop 200).take 40 =
    ascii ['0', 'x', '0', '2', ' ', '0', 'x', '3', '5', ' ', '0', 'x', '0', '0', ' ', '0', 'x', '0', '0', ' '] ++
    ascii ['0', 'x', '0', '0', ' ', '0', 'x', '6', '0', ' ', '0', 'x', '0', 'b', ' ', '0', 'x', '0', '0', '\n'] := by
  decide

/-- 40 valid tokens: InvalidFormat(40), buffers 0 to 4 loaded (X10). -/
theorem test_load_40 : after (exec (.load (tokens 40)) opened) 4 =
    some (some ⟨.invalidFormat, .byte 40⟩, 0x1F, [0x02, 0x34, 0, 0x11, 0x11, 0x11, 0x11, 0x11]) := by decide

theorem test_load_40_atomic : after (exec (.load (tokens 40)) atomicLoad) 4 =
    some (some ⟨.invalidFormat, .byte 40⟩, 0, [0x02, 0x34, 0, 0, 0, 0, 0, 0]) := by decide

theorem test_getkey_event : response (exec (.getkey 100) (kmStep { opened with reports := [some (.report (keyReport 0x25))] })) =
    some ⟨.ok, .byte 0x25⟩ := by decide

theorem test_getkey_terminated : response (exec (.getkey 0)
      (kmStep { opened with chan := .full 0x26, reports := [some .transportError] })) =
    some ⟨.monitorTerminated, .byte 0xFE⟩ := by decide

theorem test_km_wrongSignature :
    keypad (kmStep { opened with reports := [some (.report #v[0x02, 0x99, 0, 0x25, 0, 0, 0, 0])] }) = (.running, .empty, 0) := by
  decide

theorem test_km_limit3 : keypad (kmStep { threeErrors with errcnt := 2, reports := [some .transportError] }) =
    (.terminated, .empty, 3) := by decide

theorem test_fontd : response (exec (.fontd 0x61) closed) = some ⟨.ok, .byte 0x7D⟩ ∧
    response (exec (.fontd 0x47) closed) = some ⟨.ok, .byte 0⟩ := by decide

theorem test_fontc : response (exec (.fontc 0x41) closed) = some ⟨.ok, .half 0x007D⟩ ∧
    response (exec (.fontc 0xFF) closed) = some ⟨.ok, .half 0xFFFF⟩ := by decide

theorem test_keyDecode : keyDecode 0x25 = { pressed := true, keyId := 5 } ∧ keyDecode 0x05 = { pressed := false, keyId := 5 } := by
  decide

/-- Check order: opcode, reserved bits, phase, range (§3.7). -/
theorem test_checkOrder :
    response (step (closed.withFetchWord 32 0x15000000)) = some ⟨.illegalCommand, .byte 0⟩ ∧
    response (step (closed.withFetchWord 32 0x10000002)) = some ⟨.illegalCommand, .byte 1⟩ ∧
    response (step (closed.withFetchWord 32 0x10130001)) = some ⟨.illegalCommand, .byte 2⟩ ∧
    response (step (opened.withFetchWord 32 0x10130001)) = some ⟨.invalidSymbol, .byte 19⟩ := by decide

/-- The escapes of a LOAD string (R86), and a quote that touches the word before it (log 18). -/
theorem test_parse_load :
    parseLine ['L', 'O', 'A', 'D', ' ', '"', 'a', '\\', 'n', '\\', '"', '"'] = .line (.load [0x61, 0x0A, 0x22]) ∧
    parseLine ['L', 'O', 'A', 'D', '"', 'a', '"'] = .rejected := by decide

/-- The core the host runs starts at power-up and gives OPEN its meaning in the first step (§3.6). -/
theorem test_core_open : response (Sys2Proof.core.step (State.withFetchWord Sys2Proof.core.reset 32 0x01000000)) =
    some ⟨.ok, .none⟩ := rfl

theorem test_listing : disassemble { word := 0x1200007D } = ['T', 'C', 'H', 'R', ' ', '0', 'x', '0', '0', ',', ' '] ++
    ['0', 'x', '0', '0', '7', 'D'] := by decide

theorem test_assemble : assemble fixtureData (.tstr 6 [0x41, 0x58]) = some [{ word := 0x1206007D }, { word := 0x1207F000 }] ∧
    assemble fixtureData (.tdigc 2 0x32) = some [{ word := 0x1102005B }] := by decide

/-! ### Witnesses: a state and operands that meet the hypotheses of each obligation that has some -/

/-- A run's next command, CP scheduled. -/
def ready (w : CmdWord) : State := { opened with sched := [.cp], port := [{ word := w }] }

/-- A word with an operand (SYM 4, 1). -/
theorem witness_DecodedWordReencodes : decode 0x10040001 [] = .ok (.sym 4 true) := rfl

/-- A word of each row, a reserved bit, and an OP of no row. -/
theorem witness_DecodeFollowsOpcodeMap :
    (([0x01000000, 0x02000000, 0x10FF0001, 0x11FF00FF, 0x12FFFFFF, 0x13FFFFFF, 0x14000000, 0x20000000, 0x30000000, 0x31000000,
      0x4000FFFF, 0x50FF0000, 0x51FF0000] : List CmdWord).zip opRows).all (fun r => r.2.selects r.1) = true ∧
    opRows.all (fun r => !r.selects 0x01000001) = true ∧ opRows.all (fun r => !r.selects 0x15000000) = true := by decide

/-- Both ends of every range of illegal OPs. -/
theorem witness_IllegalOpcodeCompletes : (ready 0).cpWait = none ∧ (ready 0).port = { word := 0, text := [] } :: [] ∧
    ∀ op ∈ [0x00, 0x03, 0x0F, 0x15, 0x1F, 0x21, 0x2F, 0x32, 0x3F, 0x41, 0x4F, 0x52, 0xFF],
      op = 0x00 ∨ (0x03 ≤ op ∧ op ≤ 0x0F) ∨ (0x15 ≤ op ∧ op ≤ 0x1F) ∨ (0x21 ≤ op ∧ op ≤ 0x2F) ∨
        (0x32 ≤ op ∧ op ≤ 0x3F) ∨ (0x41 ≤ op ∧ op ≤ 0x4F) ∨ (0x52 ≤ op ∧ op ≤ 0xFF) := by decide

theorem witness_ReservedBitCompletes : (ready 0x10040002).cpWait = none ∧
    (ready 0x10040002).port = { word := 0x10040002, text := [] } :: [] ∧
    (0x10040002 : CmdWord).toNat / 2 ^ 24 = (0x10000000 : CmdWord).toNat / 2 ^ 24 ∧
    (0x10040002 : CmdWord) &&& 0xFF00FFFE ≠ 0x10000000 := by decide

theorem witness_StepRunsDecodedCommand : (ready 0x14000000).nextAgent = .cp ∧ (ready 0x14000000).cpWait = none ∧
    (ready 0x14000000).port = [{ word := 0x14000000 }] ∧ decodeCommand { word := 0x14000000 } = .ok .clear ∧
    decodeCommand { word := 0x14000001 } = .error .reservedBits := ⟨rfl, rfl, rfl, rfl, rfl⟩

theorem witness_StepMovesMonitor : ({ opened with sched := [.km] } : State).nextAgent = .km := rfl

theorem witness_IdleCommandPathChangesNothing :
    (({ opened with sched := [.cp] } : State).nextAgent = .cp ∧ ({ opened with sched := [.cp] } : State).port = []) ∧
    ({ ready 0 with cpWait := some 6 } : State).nextAgent = .cp ∧ ({ ready 0 with cpWait := some 6 } : State).cpWait ≠ none := by
  decide

theorem witness_FetchedWordRuns : decodeTableWord 32 0x4000FFFF = some (.getkey 65535) := by decide

/-- Both ends of each range of hex digits, and their neighbours. -/
theorem witness_FontDigitRule :
    (∀ p ∈ [(0x30, 0), (0x39, 9), (0x61, 10), (0x66, 15), (0x41, 10), (0x46, 15)],
      (p.2 < 10 ∧ p.1 = 0x30 + p.2) ∨ (10 ≤ p.2 ∧ (p.1 = 0x61 + (p.2 - 10) ∨ p.1 = 0x41 + (p.2 - 10)))) ∧
    ∀ c ∈ [0x2F, 0x3A, 0x40, 0x47, 0x60, 0x67],
      ¬(0x30 ≤ c ∧ c ≤ 0x39) ∧ ¬(0x61 ≤ c ∧ c ≤ 0x66) ∧ ¬(0x41 ≤ c ∧ c ≤ 0x46) := by decide

theorem witness_FontCharRule :
    ((0x41 : Byte) ≠ 0xFF ∧ ((0x41 : Byte), (0x007D : Half)) ∈ fixtureData.fontChar ∧
      ∀ e ∈ fixtureData.fontChar, e.1 = 0x41 → e.2 = 0x007D) ∧
    (0xFE : Byte) ≠ 0xFF ∧ ∀ e ∈ fixtureData.fontChar, e.1 ≠ 0xFE := by simp [fixtureData]

/-- Ids 0 and 8 outside, 1 and 7 inside; offsets 0 and 39. -/
theorem witness_SetBitRule : opened.buf.wf ∧ 0 < 40 ∧ 39 < 40 ∧ (∀ b ∈ ([0, 8, 255] : List Byte), ¬(1 ≤ b.toNat ∧ b.toNat ≤ 7)) ∧
    ∀ b ∈ ([1, 7] : List Byte), 1 ≤ b.toNat ∧ b.toNat ≤ 7 := by decide

theorem witness_SymResult : opened.phase = .opened ∧ opened.cfg.data.symtab.length ≤ (19 : Byte).toNat ∧
    (18 : Byte).toNat < opened.cfg.data.symtab.length := by decide

theorem witness_TdigResult : opened.phase = .opened ∧ 10 < (11 : Byte).toNat ∧ (10 : Byte).toNat < 11 ∧ (0 : Byte).toNat = 0 ∧
    (3 : Byte).toNat = 3 := by decide

theorem witness_TchrResult : opened.phase = .opened ∧ 7 < (8 : Byte).toNat ∧ (7 : Byte).toNat < 8 ∧
    opened.cfg.data.charFlags.getLsbD 15 = true := by decide

theorem witness_BchrResult : opened.phase = .opened ∧ 3 < (4 : Byte).toNat ∧ (3 : Byte).toNat < 4 ∧
    opened.cfg.data.charFlags.getLsbD 15 = true := by decide

/-- SYM 4, 1 answers; its byte is 51, so 52 is not addressed, and 48 is a header; buffer 5 is not named. -/
theorem witness_SetterFrame : isSetter (.sym 4 true) = true ∧ (∃ t, exec (.sym 4 true) opened = .next t) ∧
    (∀ w ∈ setterWrites opened.cfg.data (.sym 4 true), ∀ r, w.1 = some r → 52 ≠ segAddress r ∧ 5 ≠ r.id.toNat - 1) ∧
    ¬(48 < 56 ∧ 3 ≤ 48 % 8) := by
  refine ⟨rfl, ⟨_, rfl⟩, ?_, by decide⟩
  decide

/-- Two writes of one bit: the second decides; a third bit is named by neither. -/
theorem witness_LaterWriteDecides : opened.buf.wf ∧
    (∀ w ∈ [((⟨7, 4⟩ : SegRef), true)] ++ (⟨7, 4⟩, false) :: [(⟨1, 39⟩, true)], w.1.valid = true) ∧
    (∀ w ∈ [((⟨1, 39⟩ : SegRef), true)], ¬(w.1.id = 7 ∧ w.1.off = 4)) ∧
    ∀ w ∈ [((⟨7, 4⟩ : SegRef), true)] ++ (⟨7, 4⟩, false) :: [(⟨1, 39⟩, true)], ¬(w.1.id = 7 ∧ w.1.off = 39) := by decide

theorem witness_ClearResult : opened.phase = .opened ∧ opened.buf.wf := by decide

/-- Three dirty buffers and the Transport's coming answers. -/
def flushing (answers : List (Option SendOutcome)) : State := { opened with dirty := 0x13, sends := answers }

theorem witness_FlushSendsDirtyBuffers : (flushing [some .ok, some .ok, some .ok]).phase = .opened ∧
    ∀ n, n < (dirtyIndices (flushing [some .ok, some .ok, some .ok]).dirty).length → (flushing [some .ok, some .ok, some .ok]).answerAt n = some .ok := by decide

theorem witness_FlushStopsAtFirstError : (flushing [some .ok, some .transportError]).phase = .opened ∧
    dirtyIndices (flushing [some .ok, some .transportError]).dirty = [0] ++ 1 :: [4] ∧
    (∀ n, n < [(0 : Fin 7)].length → (flushing [some .ok, some .transportError]).answerAt n = some .ok) ∧
    (flushing [some .ok, some .transportError]).answerAt [(0 : Fin 7)].length = some .transportError := by decide

theorem witness_FlushWaitsForEver : (flushing [some .ok, none]).phase = .opened ∧
    dirtyIndices (flushing [some .ok, none]).dirty = [0] ++ 1 :: [4] ∧
    (∀ n, n < [(0 : Fin 7)].length → (flushing [some .ok, none]).answerAt n = some .ok) ∧
    (flushing [some .ok, none]).answerAt [(0 : Fin 7)].length = none := by decide

/-- Under either policy, a FLUSH that ends with TransportError. -/
theorem witness_FlushDirtyPolicy :
    (opened.cfg.data.policy.flushKeepDirtyOnError = false ∧
      ∃ t, exec .flush { opened with dirty := 1, sends := [some .transportError] } = .next t ∧ t.cidx = 0 + 1) ∧
    keepDirty.cfg.data.policy.flushKeepDirtyOnError = true ∧
      ∃ t, exec .flush { keepDirty with dirty := 1, sends := [some .transportError] } = .next t ∧ t.cidx = 0 + 1 ∧
        t.resp = some ⟨.transportError, .byte 0⟩ :=
  ⟨⟨rfl, _, rfl, rfl⟩, rfl, _, rfl, rfl, rfl⟩

theorem witness_DeviceImageAfterFlush :
    (∃ t, exec .flush { opened with dirty := 1, sends := [some .ok] } = .next t ∧ t.cidx = 0 + 1 ∧ t.resp = some ⟨.ok, .none⟩) ∧
    ∃ t, exec .flush { opened with dirty := 1, sends := [some .transportError] } = .next t ∧ t.cidx = 0 + 1 ∧
      t.resp = some ⟨.transportError, .byte (BitVec.ofNat 8 (0 : Fin 7).val)⟩ :=
  ⟨⟨_, rfl, rfl, rfl⟩, _, rfl, rfl, rfl⟩

/-- TI opened, with KM's next answers. -/
def reading (answers : List (Option ReportOutcome)) : State := { opened with reports := answers }

theorem witness_KeypadTimeoutRule : (reading [some .timeout]).mon = .running ∧ (reading [some .timeout]).kmWait = false ∧
    (reading [some .timeout]).nextReport = some .timeout := ⟨rfl, rfl, rfl⟩

/-- One failure under the limit 3. -/
def failing : State := { threeErrors with errcnt := 1, reports := [some .transportError] }

/-- At the limit (1, the default) and below it (2 of 3). -/
theorem witness_KeypadReadFailureRule :
    ((reading [some .transportError]).mon = .running ∧ (reading [some .transportError]).kmWait = false ∧
      (reading [some .transportError]).nextReport = some .transportError ∧
      (reading [some .transportError]).cfg.data.policy.readErrLimit ≤ (reading [some .transportError]).errcnt + 1) ∧
    failing.mon = .running ∧ failing.kmWait = false ∧ failing.nextReport = some .transportError ∧
      failing.errcnt + 1 < failing.cfg.data.policy.readErrLimit := by decide

/-- A report that differs from KEY_SIG in the last signature byte only. -/
def nonKey : Bytes8 := #v[0x02, 0x42, 0x01, 0x25, 0, 0, 0, 0]

theorem witness_NonKeyReportDiscarded : (reading [some (.report nonKey)]).mon = .running ∧
    (reading [some (.report nonKey)]).kmWait = false ∧
    (reading [some (.report nonKey)]).nextReport = some (.report nonKey) ∧
    nonKey[2] ≠ (reading [some (.report nonKey)]).cfg.data.keySig[2] := by decide

theorem witness_KeyReportPublished :
    let s := reading [some (.report (keyReport 0xE5))]
    s.mon = .running ∧ s.kmWait = false ∧ s.nextReport =
      some (.report #v[s.cfg.data.keySig[0], s.cfg.data.keySig[1], s.cfg.data.keySig[2], 0xE5, 0, 0, 0, 0]) := by decide

/-- Not running; waiting; and a read that is never answered. -/
theorem witness_MonitorWithoutStep : closed.mon ≠ .running ∧ ({ opened with kmWait := true } : State).kmWait = true ∧
    (reading [none]).mon = .running ∧ (reading [none]).kmWait = false ∧ (reading [none]).nextReport = none := by decide

/-- A pending event. -/
def pending : State := { opened with chan := .full 0xFF }

/-- The monitor has terminated, and CP is about to run this word. -/
def ended (w : CmdWord) : State := { ready w with mon := .terminated }

/-- A pending event, a terminated monitor, and neither. -/
theorem witness_GetkeyResult : (pending.phase = .opened ∧ pending.chan = .full 0xFF) ∧
    ((ended 0).phase = .opened ∧ (ended 0).chan = .empty ∧ (ended 0).mon = .terminated) ∧
    opened.phase = .opened ∧ opened.chan = .empty ∧ opened.mon = .running := by decide

theorem witness_TerminatedUntilClose : (ended 0x02000000).phase = .opened ∧ (ended 0x02000000).mon = .terminated ∧
    (ended 0x02000000).chan = .empty ∧ ∃ t, step (ended 0x02000000) = .next t := ⟨rfl, rfl, rfl, _, rfl⟩

theorem witness_NeitherIdleNorTimeout :
    ((ended 0).mon = .terminated ∧ ∃ t, exec (.getkey 0) (ended 0) = .next t) ∧
    ∃ t, step (ready 0x4000000A) = .next t ∧ t.cidx = (ready 0x4000000A).cidx + 1 := ⟨⟨rfl, _, rfl⟩, _, rfl, rfl⟩

theorem witness_OpenResult : closed.phase = .closed := rfl

theorem witness_CloseResult : opened.phase = .opened := rfl

theorem witness_SaveTextFormat : opened.phase = .opened := rfl

theorem witness_TokenRule : ([0x30, 0x58, 0x46, 0x61] : List Byte) ≠ [] ∧
    ∀ b ∈ ([0x30, 0x58, 0x46, 0x61] : List Byte), b ∉ ([0x20, 0x09, 0x0A, 0x0B, 0x0C, 0x0D] : List Byte) := by decide

theorem witness_LoadStoresAllPayload : opened.phase = .opened ∧ opened.buf.wf ∧ (loadValues (tokens 56)).length = 56 ∧
    (loadValues (tokens 57)).length = 56 := by decide

theorem witness_LoadFailsProgressively : opened.phase = .opened ∧ opened.buf.wf ∧ opened.cfg.data.policy.loadAtomic = false ∧
    (loadValues (tokens 55)).length < 56 ∧ (loadValues []).length < 56 := by decide

theorem witness_LoadFailsAtomically : atomicLoad.phase = .opened ∧ atomicLoad.cfg.data.policy.loadAtomic = true ∧
    (loadValues (tokens 55)).length < 56 := by decide

theorem witness_SaveLoadRoundTrip : opened.buf.wf ∧ ∃ t, exec .save (opened.setByte 3 0xFF) = .next t ∧
    t.resp = some ⟨.ok, .text (opened.setByte 3 0xFF).savedText⟩ ∧
    ∀ (i : Fin 7) (k : Fin 8), k.val < 3 → opened.bufByte i k = (opened.setByte 3 0xFF).bufByte i k :=
  ⟨by decide, _, rfl, rfl, by decide⟩

theorem witness_PhaseGating : closed.phase = .closed ∧ runsClosed .flush = false ∧ runsClosed .openSession = true ∧
    opened.phase = .opened := by decide

theorem witness_ErrorsLeaveState : ∃ t, exec (.tdig 11 0) opened = .next t ∧ t.cidx = opened.cidx + 1 ∧
    t.resp = some ⟨.invalidPosition, .byte 11⟩ ∧ (Status.invalidPosition ≠ .ok ∧ Status.invalidPosition ≠ .transportError ∧
      Status.invalidPosition ≠ .invalidFormat) := ⟨_, rfl, rfl, rfl, by decide⟩

theorem witness_CommandIndexAdvances : (∃ t, exec (.fontd 0x41) opened = .next t) ∧ ∃ t, step (ready 0) = .next t :=
  ⟨⟨_, rfl⟩, _, rfl⟩

theorem witness_ConfigurationNeverWritten : ∃ t, step (ready 0x02000000) = .next t := ⟨_, rfl⟩

/-- The invariant holds of a state with an open session, and a step leaves it by CLOSE. -/
theorem witness_StepKeepsInvariant : (ready 0x02000000).Inv ∧ ∃ t, step (ready 0x02000000) = .next t := by
  refine ⟨⟨⟨by decide, by decide⟩, fun _ => by decide, ⟨nofun, fun _ => nofun⟩, nofun, fun _ => by decide,
    fun n r h => ?_, fun h => absurd rfl h, nofun⟩, _, rfl⟩
  exact absurd h (by simp [ready, opened, State.opened, State.powerUp])

theorem witness_HeadersNeverChange : HeadersFixed opened ∧ opened.phase = .opened ∧ (∃ t, step (ready 0x40000000) = .next t) ∧
    ∃ t, exec (.getkey 0) opened = .next t ∧ t.phase = .opened :=
  ⟨fun _ => by decide, rfl, ⟨_, rfl⟩, _, rfl, rfl⟩

theorem witness_KeypadStepsCommute : leavesKeypad (.fontc 0x41) = true ∧ ∃ t, exec (.fontc 0x41) opened = .next t :=
  ⟨rfl, _, rfl⟩

theorem witness_AbsentStateNeverRead : closed.phase = .closed ∧ (∃ t, exec .openSession closed = .next t) ∧
    ∃ t, exec .save closed = .next t := ⟨rfl, ⟨_, rfl⟩, _, rfl⟩

theorem witness_ReopenedSessionIsFresh : opened.phase = .opened := rfl

theorem witness_WaitingCommandPathIsStuck : ({ ready 0x02000000 with cpWait := some 0 } : State).cpWait ≠ none ∧
    ∃ t, step { ready 0x02000000 with cpWait := some 0 } = .next t := ⟨nofun, _, rfl⟩

/-- The escaped bytes, both ends of the ASCII codes, a semicolon and a comma; and a command without a text. -/
theorem witness_DisassemblyReassembles :
    (∀ text, Instr.load [0x00, 0x0A, 0x09, 0x5C, 0x22, 0x3B, 0x2C, 0x7F] = .load text → ∀ b ∈ text, b.toNat < 128) ∧
    ∀ text, Instr.getkey 65535 = .load text → ∀ b ∈ text, b.toNat < 128 :=
  ⟨fun _ h => Instr.load.inj h ▸ by decide, nofun⟩

/-- The glyph answers, and strings that just fit their row or go one past it. -/
theorem witness_GlyphPseudoInstructions :
    (∃ t, exec (.fontc 0x41) opened = .next t ∧ t.resp = some ⟨.ok, .half 0x007D⟩) ∧
    (∃ t, exec (.fontd 0x41) opened = .next t ∧ t.resp = some ⟨.ok, .byte 0x7D⟩) ∧
    6 + ([0x41, 0x58] : List Byte).length ≤ 8 ∧ ([0x41, 0x58] : List Byte)[1]? = some 0x58 ∧
    8 < 7 + ([0x41, 0x58] : List Byte).length ∧ 2 + ([0x41, 0x58] : List Byte).length ≤ 4 ∧
    4 < 3 + ([0x41, 0x58] : List Byte).length :=
  ⟨⟨_, rfl, rfl⟩, ⟨_, rfl, rfl⟩, by decide, rfl, by decide, by decide, by decide⟩

end Sys2Proof.Tests
end

section
/-! PROOFS. No step and no command stops the machine (R10, R41, R102, R128). -/

namespace Sys2Proof.Machine

/-- An outcome that is a next state: no fault, no refusal. -/
def GoesOn (o : Outcome) : Prop := ∃ t, o = .next t

theorem goesOn_next (t : State) : GoesOn (.next t) := ⟨t, rfl⟩

theorem goesOn_returnOk (data : RespData) (s : State) : GoesOn (returnOk data s) := goesOn_next _

theorem goesOn_raise (status : Status) (info : Byte) (s : State) : GoesOn (raise status info s) := goesOn_next _

theorem goesOn_illegal (cause : IllegalCause) (s : State) : GoesOn (illegal cause s) := goesOn_raise _ _ s

theorem goesOn_illegalWord (why : DecodeIllegal) (s : State) : GoesOn (illegalWord why s) := by
  cases why with
  | opcode => exact goesOn_illegal .opcode s
  | reservedBits => exact goesOn_illegal .reservedBits s

/-- A command behind the phase check of R125 goes on if its body does in an open session. -/
theorem goesOn_whenOpen {s : State} {body : State → Outcome} (h : s.phase = .opened → GoesOn (body s)) :
    GoesOn (whenOpen s body) := by
  rcases whenOpen_cases s body with ⟨ho, hb⟩ | ⟨-, hb⟩ <;> rw [hb]
  · exact h ho
  · exact goesOn_illegal _ s

/-- A setter goes on under every configuration that has passed the checks of R41: all its SET_BITs are valid (R102). -/
theorem SetterAnswer.goesOn {s : State} {bad : Prop} {status : Status} {info : Byte} {writes : List BitWrite} {o : Outcome}
    (h : SetterAnswer s bad status info writes o) : GoesOn o := by
  rcases h.cases with ⟨-, rfl⟩ | ⟨-, -, rfl⟩ | ⟨-, -, ws, -, -, rfl⟩
  · exact goesOn_illegal _ s
  · exact goesOn_raise _ _ s
  · exact goesOn_returnOk _ _

theorem goesOn_execOpen (s : State) : GoesOn (execOpen s) := by
  unfold execOpen whenClosed
  split
  · exact goesOn_returnOk _ _
  · exact goesOn_illegal _ s

theorem goesOn_execClose (s : State) : GoesOn (execClose s) :=
  goesOn_whenOpen (body := fun s => returnOk .none s.shut) fun _ => goesOn_returnOk _ _

theorem goesOn_execClear (s : State) : GoesOn (execClear s) :=
  goesOn_whenOpen (body := fun s => returnOk .none s.cleared) fun _ => goesOn_returnOk _ _

theorem goesOn_execSave (s : State) : GoesOn (execSave s) :=
  goesOn_whenOpen (body := fun s => returnOk (.text s.savedText) s) fun _ => goesOn_returnOk _ _

/-- FLUSH goes on however its sends end, also when one is never answered (log 8). -/
theorem goesOn_execFlush (s : State) : GoesOn (execFlush s) := by
  unfold execFlush
  refine goesOn_whenOpen fun _ => ?_
  cases flushLoop s.dirty bufferIndices s with
  | sentAll t => exact goesOn_returnOk _ _
  | failed i t => exact goesOn_raise _ _ _
  | waiting i t => exact goesOn_next _

theorem goesOn_execLoad (text : List Byte) (s : State) : GoesOn (execLoad text s) := by
  rcases execLoad_cases text s with ⟨-, h⟩ | ⟨-, -, -, h⟩ | ⟨-, -, -, h⟩ | ⟨-, -, -, h⟩ | ⟨-, -, -, h⟩ <;> exact ⟨_, h⟩

theorem goesOn_execGetkey (timeout : Half) (s : State) : GoesOn (execGetkey timeout s) := by
  rcases execGetkey_cases timeout s with ⟨-, h⟩ | ⟨-, k, -, h⟩ | ⟨-, -, -, h⟩ | ⟨-, -, -, h⟩ <;> exact ⟨_, h⟩

/-- Every command goes on, whatever its operands and the state. -/
theorem goesOn_exec (i : Instr) (s : State) : GoesOn (exec i s) := by
  cases i with
  | openSession => exact goesOn_execOpen s
  | closeSession => exact goesOn_execClose s
  | sym sym on => exact (execSym_answer sym on s).goesOn
  | tdig pos mask => exact (execTdig_answer pos mask s).goesOn
  | tchr pos mask => exact (execTchr_answer pos mask s).goesOn
  | bchr pos mask => exact (execBchr_answer pos mask s).goesOn
  | clear => exact goesOn_execClear s
  | flush => exact goesOn_execFlush s
  | save => exact goesOn_execSave s
  | load text => exact goesOn_execLoad text s
  | getkey timeout => exact goesOn_execGetkey timeout s
  | fontd char => exact goesOn_returnOk _ s
  | fontc char => exact goesOn_returnOk _ s

/-- CP goes on: it lets its turn pass, runs the decoded command, or answers an illegal word (R69, R70). -/
theorem goesOn_cpStep (s : State) : GoesOn (cpStep s) := by
  unfold cpStep
  split
  · exact goesOn_next s
  · exact goesOn_next s
  · split
    · exact goesOn_exec _ _
    · exact goesOn_illegalWord _ _

theorem goesOn_step (s : State) : GoesOn (step s) := by
  unfold step
  cases s.nextAgent with
  | cp => exact goesOn_cpStep s.advance
  | km => exact goesOn_next (kmStep s.advance)

/-- Settles O54: each command's answer is known by its cases, where the checks of R41 rule out the faults of the setters, and
a step is a move of KM, a turn that passes, an illegal word or a command. -/
theorem everyStepGoesOn : Obligations.EveryStepGoesOn :=
  ⟨goesOn_step, goesOn_exec⟩

end Sys2Proof.Machine
end

section
/-! PROOFS. What a step is, by the agent the schedule names (R13, R44, R57). -/

namespace Sys2Proof.Machine

theorem step_of_cp {s : State} (h : s.nextAgent = .cp) : step s = cpStep s.advance := by
  rw [step, h, stepAs]

theorem step_of_km {s : State} (h : s.nextAgent = .km) : step s = .next (kmStep s.advance) := by
  rw [step, h, stepAs]

theorem cpStep_of_decoded {s : State} {c : Command} {rest : List Command} {i : Instr} (hw : s.cpWait = none)
    (hp : s.port = c :: rest) (hd : decodeCommand c = .ok i) : cpStep s = exec i { s with port := rest } := by
  simp only [cpStep, hw, hp, hd]

theorem cpStep_of_illegal {s : State} {c : Command} {rest : List Command} {why : DecodeIllegal} (hw : s.cpWait = none)
    (hp : s.port = c :: rest) (hd : decodeCommand c = .error why) :
    cpStep s = illegalWord why { s with port := rest } := by
  simp only [cpStep, hw, hp, hd]

theorem cpStep_of_noStep {s : State} (h : s.port = [] ∨ s.cpWait ≠ none) : cpStep s = .next s := by
  unfold cpStep
  split
  · rfl
  · rfl
  · rename_i hw hp
    rw [hw, hp] at h
    simp at h

/-- Settles O7: the schedule's move changes neither port nor waiting, so CP takes the command that stood first. -/
theorem stepRunsDecodedCommand : Obligations.StepRunsDecodedCommand := by
  intro s c rest ha hw hp
  rw [step_of_cp ha]
  exact ⟨fun i hd => cpStep_of_decoded (s := s.advance) hw hp hd, fun why hd => cpStep_of_illegal (s := s.advance) hw hp hd⟩

/-- Settles O8. -/
theorem stepMovesMonitor : Obligations.StepMovesMonitor :=
  fun _ ha => step_of_km ha

/-- Settles O9. -/
theorem idleCommandPathChangesNothing : Obligations.IdleCommandPathChangesNothing :=
  fun s ha h => (step_of_cp ha).trans (cpStep_of_noStep (s := s.advance) h)

end Sys2Proof.Machine
end

section
/-! PROOFS. The commands OPEN, CLOSE and CLEAR, each in the phase that lets it run (R101, R116, R117). -/

namespace Sys2Proof.Machine

theorem whenClosed_closed {s : State} (h : s.phase = .closed) (body : State → Outcome) : whenClosed s body = body s := by
  simp only [whenClosed, h]

theorem exec_openSession_closed {s : State} (h : s.phase = .closed) :
    exec .openSession s = .next (s.opened.complete .ok .none) :=
  whenClosed_closed h fun s => returnOk .none s.opened

theorem exec_closeSession_opened {s : State} (h : s.phase = .opened) :
    exec .closeSession s = .next (s.shut.complete .ok .none) :=
  whenOpen_opened h fun s => returnOk .none s.shut

theorem exec_clear_opened {s : State} (h : s.phase = .opened) :
    exec .clear s = .next (s.cleared.complete .ok .none) :=
  whenOpen_opened h fun s => returnOk .none s.cleared

theorem State.opened_bufByte (s : State) (i : Fin 7) (k : Fin 8) : s.opened.bufByte i k = s.cfg.data.template[i][k] :=
  Memory.read_ofTemplate s.cfg.data.template i k

/-- Settles O38: the next state is the session OPEN creates, whose buffer memory is the template's. -/
theorem openResult : Obligations.OpenResult :=
  fun s hp => ⟨_, exec_openSession_closed hp, rfl, s.opened_bufByte⟩

/-- Settles O39. -/
theorem closeResult : Obligations.CloseResult :=
  fun _ hp => exec_closeSession_opened hp

/-- Settles O22: CLEAR writes 0 at every payload address of a canonical memory. -/
theorem clearResult : Obligations.ClearResult :=
  fun s hp hwf => ⟨_, exec_clear_opened hp, rfl, s.buf.read_zeroPayload hwf⟩

end Sys2Proof.Machine
end

section
/-! PROOFS. The setters: their range errors, the SET_BITs they make, and their frame (R93 to R102). -/

namespace Sys2Proof.Machine

theorem asWrites_injective : Function.Injective asWrites :=
  List.map_injective_iff.mpr fun a b h => by simpa [Prod.ext_iff] using h

theorem mem_asWrites {ws : List (SegRef × Bool)} {r : SegRef} {on : Bool} :
    (some r, on) ∈ asWrites ws ↔ (r, on) ∈ ws := by
  simp [asWrites]

section
variable {s : State} {bad : Prop} {status : Status} {info : Byte} {o : Outcome}

/-- In an open session an operand out of range ends the setter with its error. -/
theorem SetterAnswer.of_bad {writes : List BitWrite} (h : SetterAnswer s bad status info writes o) (hp : s.phase = .opened)
    (hb : bad) : o = raise status info s := by
  rcases h.cases with ⟨hc, -⟩ | ⟨-, -, ho⟩ | ⟨-, hn, -⟩
  · rw [hp] at hc
    cases hc
  · exact ho
  · exact absurd hb hn

/-- In an open session an operand in range makes exactly the listed SET_BITs and ends OK. -/
theorem SetterAnswer.of_good {ws : List (SegRef × Bool)} (h : SetterAnswer s bad status info (asWrites ws) o)
    (hp : s.phase = .opened) (hb : ¬bad) : o = returnOk .none (s.writeBits ws) := by
  rcases h.cases with ⟨hc, -⟩ | ⟨-, hn, -⟩ | ⟨-, -, ws', hws, -, ho⟩
  · rw [hp] at hc
    cases hc
  · exact absurd hn hb
  · rw [ho, asWrites_injective hws]

/-- What a setter's next state leaves, whatever it answers, in terms of the SET_BITs it would make. -/
structure SetterFrame (s t : State) (writes : List BitWrite) : Prop where
  others : t = { s with buf := t.buf, dirty := t.dirty, cidx := s.cidx + 1, resp := t.resp }
  unaddressed : ∀ a, (∀ r on, (some r, on) ∈ writes → a ≠ segAddress r) → t.byteAt a = s.byteAt a
  headers : ∀ a, ¬(a < 56 ∧ 3 ≤ a % 8) → t.byteAt a = s.byteAt a
  unnamed : ∀ j, (∀ r on, (some r, on) ∈ writes → j ≠ r.id.toNat - 1) → t.dirty.getLsbD j = s.dirty.getLsbD j

theorem SetterFrame.of_complete (s : State) (status : Status) (data : RespData) (writes : List BitWrite) :
    SetterFrame s (s.complete status data) writes :=
  ⟨rfl, fun _ _ => rfl, fun _ _ => rfl, fun _ _ => rfl⟩

theorem State.writeBits_dirty_unnamed (s : State) (ws : List (SegRef × Bool)) (j : Nat)
    (h : ∀ w ∈ ws, j ≠ w.1.id.toNat - 1) : (s.writeBits ws).dirty.getLsbD j = s.dirty.getLsbD j := by
  by_cases hj : j < 7
  · have hany : (ws.any fun w => w.1.id.toNat - 1 == j) = false := by
      simpa [List.any_eq_false] using fun r on hw => (h (r, on) hw).symm
    rw [s.writeBits_dirty ws j hj, hany, Bool.or_false]
  · rw [BitVec.getLsbD_of_ge _ _ (by omega), BitVec.getLsbD_of_ge _ _ (by omega)]

theorem SetterFrame.of_writeBits (s : State) (ws : List (SegRef × Bool)) (hv : ∀ w ∈ ws, w.1.valid = true) :
    SetterFrame s ((s.writeBits ws).complete .ok .none) (asWrites ws) where
  others := by
    rw [s.writeBits_frame ws]
    rfl
  unaddressed a ha := s.writeBits_byteAt_ne ws a fun w hw => ha w.1 w.2 (mem_asWrites.mpr hw)
  headers a ha := s.writeBits_byteAt_ne ws a fun w hw he => ha (he ▸ segAddress_payload w.1 (hv w hw))
  unnamed j hj := s.writeBits_dirty_unnamed ws j fun w hw => hj w.1 w.2 (mem_asWrites.mpr hw)

theorem SetterAnswer.frame {t : State} {writes : List BitWrite} (h : SetterAnswer s bad status info writes (.next t)) :
    SetterFrame s t writes := by
  rcases h.cases with ⟨-, ht⟩ | ⟨-, -, ht⟩ | ⟨-, -, ws, rfl, hv, ht⟩ <;> injection ht with ht <;> subst ht
  · exact .of_complete s _ _ _
  · exact .of_complete s _ _ _
  · exact .of_writeBits s ws hv

end

/-- Each setter answers in terms of the SET_BITs the lookups of its meaning give. -/
theorem exec_setter_answer {i : Instr} (hi : isSetter i = true) (s : State) :
    ∃ (bad : Prop) (status : Status) (info : Byte),
      SetterAnswer s bad status info (setterWrites s.cfg.data i) (exec i s) := by
  cases i with
  | sym sym on => exact ⟨_, _, _, execSym_answer sym on s⟩
  | tdig pos mask => exact ⟨_, _, _, execTdig_answer pos mask s⟩
  | tchr pos mask => exact ⟨_, _, _, execTchr_answer pos mask s⟩
  | bchr pos mask => exact ⟨_, _, _, execBchr_answer pos mask s⟩
  | _ => cases hi

/-- Settles O20: an error leaves everything, and the SET_BITs of a well-formed configuration write payload bits only. -/
theorem setterFrame : Obligations.SetterFrame := by
  intro i s t hi h
  obtain ⟨bad, status, info, ha⟩ := exec_setter_answer hi s
  rw [h] at ha
  obtain ⟨others, unaddressed, headers, unnamed⟩ := ha.frame
  exact ⟨others, unaddressed, headers, unnamed⟩

/-- Settles O15. -/
theorem symResult : Obligations.SymResult := by
  intro s sym on hp
  have ha := execSym_answer sym on s
  refine ⟨fun hbad => ha.of_bad hp hbad, fun hlt => ?_⟩
  rw [(symRef_valid s.cfg sym.toNat hlt).1] at ha
  exact SetterAnswer.of_good (ws := [(_, on)]) ha hp (Nat.not_le_of_lt hlt)

theorem isBar_iff (p : Nat) : isBar p = true ↔ p = 0 ∨ p = 3 := by
  simp [isBar]

theorem digitWrites_bar (c : ConfigData) {p : Nat} (h : p < 11) (hbar : isBar p = true) (m : Byte) :
    digitWrites c p m = asWrites [(c.diglayout[p][7], m.getLsbD 7)] := by
  rw [digitWrites, if_pos hbar, show digRef c p 7 = _ from digRef_get c ⟨p, h⟩ 7]
  rfl

theorem digitWrites_strokes (c : ConfigData) {p : Nat} (h : p < 11) (hbar : ¬isBar p = true) (m : Byte) :
    digitWrites c p m = asWrites
      [(c.diglayout[p][0], m.getLsbD 0), (c.diglayout[p][1], m.getLsbD 1), (c.diglayout[p][2], m.getLsbD 2),
       (c.diglayout[p][3], m.getLsbD 3), (c.diglayout[p][4], m.getLsbD 4), (c.diglayout[p][5], m.getLsbD 5),
       (c.diglayout[p][6], m.getLsbD 6)] := by
  rw [digitWrites, if_neg hbar, show List.range 7 = [0, 1, 2, 3, 4, 5, 6] from rfl]
  simp [asWrites, digRef, h]

/-- Settles O16: the position's row of DIGLAYOUT gives one SET_BIT at a bar, seven elsewhere. -/
theorem tdigResult : Obligations.TdigResult := by
  intro s p m hp
  have ha := execTdig_answer p m s
  refine ⟨fun hbad => ha.of_bad hp hbad, fun hlt => ?_⟩
  have hgood : ¬10 < p.toNat := by omega
  intro row
  split
  · rename_i hbar
    rw [digitWrites_bar _ hlt ((isBar_iff _).mpr hbar)] at ha
    exact ha.of_good hp hgood
  · rename_i hbar
    rw [digitWrites_strokes _ hlt (mt (isBar_iff _).mp hbar)] at ha
    exact ha.of_good hp hgood

end Sys2Proof.Machine
end
section
/-! PROOFS. FLUSH: what it sends, what it answers, and what the device holds after it (R28, R103 to R105). -/

namespace Sys2Proof.Machine

section
variable {s t : State} (hp : s.phase = .opened)
include hp

theorem exec_flush_of_sentAll (h : flushLoop s.dirty bufferIndices s = .sentAll t) :
    exec .flush s = .next ((t.setDirty 0).complete .ok .none) := by
  simp only [exec, execFlush, whenOpen, hp, h, returnOk]

theorem exec_flush_of_failed {i : Fin 7} (h : flushLoop s.dirty bufferIndices s = .failed i t) :
    exec .flush s = .next (t.dirtyAfterFailure.complete .transportError (.byte (BitVec.ofNat 8 i))) := by
  simp only [exec, execFlush, whenOpen, hp, h, raise]

end

/-- The mask a FLUSH that met TransportError leaves (R104). -/
def State.maskAfterFailure (s : State) : BitVec 7 :=
  if s.cfg.data.policy.flushKeepDirtyOnError then s.dirty else 0

theorem State.dirtyAfterFailure_eq (s : State) : s.dirtyAfterFailure = s.setDirty s.maskAfterFailure := by
  unfold State.dirtyAfterFailure State.maskAfterFailure
  split <;> rfl

/-- Settles O23: every send is answered Ok, so the loop sends all dirty buffers. -/
theorem flushSendsDirtyBuffers : Obligations.FlushSendsDirtyBuffers := by
  intro s hp hok
  rw [exec_flush_of_sentAll hp (flushLoop_allOk s.dirty s hok)]
  simp only [State.afterSends, List.length_map]
  rfl

/-- Settles O24: the loop stops at the first send that is not answered Ok, and the mask follows the policy. -/
theorem flushStopsAtFirstError : Obligations.FlushStopsAtFirstError := by
  intro s pre post i hp hd hok herr
  rw [exec_flush_of_failed hp ((flushLoop_stopsAt s.dirty s pre i post hd hok).1 herr)]
  simp only [State.dirtyAfterFailure_eq, State.afterSends, List.length_append, List.length_map, List.length_singleton]
  rfl

/-! ### The last record of a buffer -/

theorem lastRecord_append_of_absent (l : List SendRecord) {l' : List SendRecord} {i : Fin 7}
    (h : ∀ r ∈ l', r.index ≠ i) : lastRecord (l ++ l') i = lastRecord l i := by
  have hnil : l'.filter (fun r => r.index = i) = [] := by simpa [List.filter_eq_nil_iff] using h
  rw [lastRecord, List.filter_append, hnil, List.append_nil, lastRecord]

theorem lastRecord_append_of_present (l : List SendRecord) {l' : List SendRecord} {i : Fin 7}
    (h : ∃ r ∈ l', r.index = i) : ∃ r ∈ l', r.index = i ∧ lastRecord (l ++ l') i = some r := by
  obtain ⟨r, hr, hi⟩ := h
  have hne : l'.filter (fun r => r.index = i) ≠ [] := List.ne_nil_of_mem (List.mem_filter.mpr ⟨hr, by simpa using hi⟩)
  have hlast := List.mem_filter.mp (List.getLast_mem hne)
  refine ⟨_, hlast.1, by simpa using hlast.2, ?_⟩
  rw [lastRecord, List.filter_append, List.getLast?_append, List.getLast?_eq_some_getLast hne, Option.some_or]

theorem mem_sendRecords {s : State} {n : Nat} {rs : List (Fin 7 × SendOutcome)} {r : SendRecord}
    (h : r ∈ sendRecords s n rs) : (r.index, r.outcome) ∈ rs ∧ r.bytes = s.buffer r.index := by
  induction rs generalizing n with
  | nil => cases h
  | cons p rs ih =>
    rcases List.mem_cons.mp h with rfl | h
    · exact ⟨List.mem_cons_self, rfl⟩
    · exact ⟨List.mem_cons_of_mem _ (ih h).1, (ih h).2⟩

theorem exists_mem_sendRecords (s : State) (n : Nat) {rs : List (Fin 7 × SendOutcome)} {i : Fin 7} {o : SendOutcome}
    (h : (i, o) ∈ rs) : ∃ r ∈ sendRecords s n rs, r.index = i := by
  induction rs generalizing n with
  | nil => cases h
  | cons p rs ih =>
    rcases List.mem_cons.mp h with rfl | h
    · exact ⟨_, List.mem_cons_self, rfl⟩
    · obtain ⟨r, hr, hi⟩ := ih (n + 1) h
      exact ⟨r, List.mem_cons_of_mem _ hr, hi⟩

/-! ### The device image after some sends (R28) -/

section
variable {s t : State} {n : Nat} {rs : List (Fin 7 × SendOutcome)} {i : Fin 7} {o : SendOutcome}

/-- What is known of a buffer not sent is unchanged. -/
theorem State.deviceImage_of_unsent (ht : t.sendlog = s.sendlog ++ sendRecords s n rs) (h : ∀ o, (i, o) ∉ rs) :
    t.deviceImage i = s.deviceImage i := by
  have hlast := lastRecord_append_of_absent s.sendlog (l' := sendRecords s n rs) (i := i)
    fun r hr hi => h r.outcome (hi ▸ (mem_sendRecords hr).1)
  rw [State.deviceImage, State.deviceImage, ht, hlast]

/-- A buffer all of whose sends got one answer is known as it is if that was Ok, and unknown if not. -/
theorem State.deviceImage_of_sent (ht : t.sendlog = s.sendlog ++ sendRecords s n rs) (h : (i, o) ∈ rs)
    (honly : ∀ o', (i, o') ∈ rs → o' = o) : t.deviceImage i = if o = .ok then some (s.buffer i) else none := by
  obtain ⟨r, hr, rfl, hlast⟩ := lastRecord_append_of_present s.sendlog (exists_mem_sendRecords s n h)
  obtain ⟨hmem, hbytes⟩ := mem_sendRecords hr
  simp only [State.deviceImage, ht, hlast, hbytes, honly r.outcome hmem]

end

theorem mem_dirtyIndices {d : BitVec 7} {i : Fin 7} : i ∈ dirtyIndices d ↔ d.getLsbD i = true := by
  have hall : ∀ i : Fin 7, i ∈ bufferIndices := by decide
  simp [dirtyIndices, hall i]

theorem dirtyIndices_sorted (d : BitVec 7) : (dirtyIndices d).Pairwise (· < ·) :=
  List.Pairwise.filter _ (by decide)

/-- The dirty buffers sent before the one whose send failed are those of lower index. -/
theorem mem_before_failed {d : BitVec 7} {pre post : List (Fin 7)} {i j : Fin 7} (h : dirtyIndices d = pre ++ i :: post) :
    j ∈ pre ↔ d.getLsbD j = true ∧ j < i := by
  have hsorted := dirtyIndices_sorted d
  rw [h] at hsorted
  obtain ⟨-, hpost, hpre⟩ := List.pairwise_append.mp hsorted
  have hmem := mem_dirtyIndices (d := d) (i := j)
  rw [h, List.mem_append, List.mem_cons] at hmem
  constructor
  · intro hj
    exact ⟨hmem.mp (.inl hj), hpre j hj i List.mem_cons_self⟩
  · rintro ⟨hd, hlt⟩
    rcases hmem.mpr hd with hj | rfl | hj
    · exact hj
    · exact absurd hlt (lt_irrefl j)
    · exact absurd hlt (lt_asymm ((List.pairwise_cons.mp hpost).1 j hj))

theorem mem_map_ok {is : List (Fin 7)} {j : Fin 7} {o : SendOutcome} :
    (j, o) ∈ is.map (fun i => (i, SendOutcome.ok)) ↔ j ∈ is ∧ o = .ok := by
  simp [eq_comm]

theorem deviceImage_of_allSent {s t : State}
    (ht : t.sendlog = s.sendlog ++
      sendRecords s s.sendlog.length ((dirtyIndices s.dirty).map fun i => (i, SendOutcome.ok))) (i : Fin 7) :
    t.deviceImage i = if s.dirty.getLsbD i.val then some (s.buffer i) else s.deviceImage i := by
  split
  · rename_i hd
    exact State.deviceImage_of_sent (o := .ok) ht (mem_map_ok.mpr ⟨mem_dirtyIndices.mpr hd, rfl⟩)
      fun _ ho => (mem_map_ok.mp ho).2
  · rename_i hd
    exact State.deviceImage_of_unsent ht fun _ ho => hd (mem_dirtyIndices.mp (mem_map_ok.mp ho).1)

theorem deviceImage_of_failed {s t : State} {pre post : List (Fin 7)} {i : Fin 7}
    (hd : dirtyIndices s.dirty = pre ++ i :: post)
    (ht : t.sendlog = s.sendlog ++
      sendRecords s s.sendlog.length (pre.map (fun j => (j, SendOutcome.ok)) ++ [(i, .transportError)])) :
    t.deviceImage i = none ∧
      ∀ j : Fin 7, j ≠ i →
        t.deviceImage j = if s.dirty.getLsbD j.val ∧ j < i then some (s.buffer j) else s.deviceImage j := by
  have hmem {j o} : (j, o) ∈ pre.map (fun j => (j, SendOutcome.ok)) ++ [(i, .transportError)] ↔
      (j ∈ pre ∧ o = .ok) ∨ (j = i ∧ o = .transportError) := by
    rw [List.mem_append, mem_map_ok, List.mem_singleton, Prod.mk.injEq]
  have hi : i ∉ pre := fun h => lt_irrefl i ((mem_before_failed hd).mp h).2
  refine ⟨?_, fun j hj => ?_⟩
  · exact State.deviceImage_of_sent (o := .transportError) ht (hmem.mpr (.inr ⟨rfl, rfl⟩)) fun o ho =>
      (hmem.mp ho).elim (fun h => absurd h.1 hi) And.right
  · split
    · rename_i hsent
      exact State.deviceImage_of_sent (o := .ok) ht (hmem.mpr (.inl ⟨(mem_before_failed hd).mpr hsent, rfl⟩)) fun o ho =>
        (hmem.mp ho).elim And.right fun h => absurd h.1 hj
    · rename_i hunsent
      exact State.deviceImage_of_unsent ht fun o ho =>
        (hmem.mp ho).elim (fun h => hunsent ((mem_before_failed hd).mp h.1)) fun h => hj h.1

/-- Buffer indices have different bytes, so the data of TransportError names the buffer (R123). -/
theorem indexByte_injective : ∀ i j : Fin 7, BitVec.ofNat 8 i.val = BitVec.ofNat 8 j.val → i = j := by decide

/-- Settles O27: a completed FLUSH either sent every dirty buffer or stopped at the one its response names; a FLUSH left
waiting has not moved `cidx`. -/
theorem deviceImageAfterFlush : Obligations.DeviceImageAfterFlush := by
  intro s t hp h hc
  rcases execFlush_cases s hp with ⟨-, hf⟩ | ⟨pre, i, post, hd, -, ⟨-, hf⟩ | ⟨-, hf⟩⟩ <;>
    (have ht := h.symm.trans hf; injection ht with ht; subst ht)
  · exact ⟨fun _ => deviceImage_of_allSent rfl, nofun⟩
  · refine ⟨nofun, fun i' hr => ?_⟩
    obtain rfl : i = i' := indexByte_injective i i' (by simpa using hr)
    exact deviceImage_of_failed hd (by rw [State.complete_sendlog, State.dirtyAfterFailure_sendlog]; rfl)
  · exact absurd hc (Nat.ne_of_lt (Nat.lt_succ_self s.cidx))

end Sys2Proof.Machine
end
section
/-! PROOFS. The commands while Closed, and that none of them reads the absent buffers and mask (R42, R125). -/

namespace Sys2Proof.Machine

/-- Every command but OPEN, FONTD and FONTC is refused (R125). -/
theorem exec_closed {i : Instr} {s : State} (hp : s.phase = .closed) (hi : runsClosed i = false) :
    exec i s = illegal .wrongPhase s := by
  cases i with
  | openSession => cases hi
  | fontd ch => cases hi
  | fontc ch => cases hi
  | _ =>
    simp only [exec, execClose, execSym, execTdig, execTchr, execBchr, execClear, execFlush, execSave, execLoad, execGetkey,
      whenOpen_closed hp]

/-- Settles O56: while Closed a command is OPEN, which puts new buffers and a new mask, a font lookup, which leaves them as
they are, or one that is refused and leaves them too. -/
theorem absentStateNeverRead : Obligations.AbsentStateNeverRead := by
  intro i s t m d hp h
  cases hi : runsClosed i with
  | false =>
    rw [exec_closed hp hi] at h
    injection h with h
    subst h
    exact .inr ⟨hp, exec_closed hp hi⟩
  | true =>
    cases i with
    | openSession =>
      rw [exec_openSession_closed hp] at h
      injection h with h
      subst h
      exact .inl ⟨rfl, exec_openSession_closed (s := { s with buf := m, dirty := d }) hp⟩
    | fontd ch =>
      injection h with h
      subst h
      exact .inr ⟨hp, rfl⟩
    | fontc ch =>
      injection h with h
      subst h
      exact .inr ⟨hp, rfl⟩
    | _ => cases hi

end Sys2Proof.Machine
end

section
/-! PROOFS. The command index and the configuration (R25, R26, R30). -/

namespace Sys2Proof.Machine

/-- What FLUSH answers in an open session: it completes after some sends, or it is left waiting after some (R103, R151). -/
theorem execFlush_next {s t : State} (hp : s.phase = .opened) (h : exec .flush s = .next t) :
    (∃ rs dirty status data, t = ((s.afterSends rs).setDirty dirty).complete status data) ∨
    (∃ rs sends i, t = { s.afterSends rs with sends := sends, cpWait := some i }) := by
  rcases execFlush_cases s hp with ⟨-, hf⟩ | ⟨pre, i, post, -, -, ⟨-, hf⟩ | ⟨-, hf⟩⟩ <;>
    (have ht := h.symm.trans hf; injection ht with ht)
  · exact .inl ⟨_, _, _, _, ht⟩
  · rw [State.dirtyAfterFailure_eq] at ht
    exact .inl ⟨_, _, _, _, ht⟩
  · exact .inr ⟨_, _, _, ht⟩

/-- A command completes, or it is a FLUSH left waiting. -/
theorem exec_completes {i : Instr} {s t : State} (h : exec i s = .next t) :
    (t.cidx = s.cidx + 1 ∧ ∃ r, t.resp = some r) ∨ (i = .flush ∧ t.cpWait ≠ none ∧ t.cidx = s.cidx ∧ t.resp = s.resp) := by
  cases exec_answer h with
  | flushes hp hi =>
    subst hi
    rcases execFlush_next hp h with ⟨rs, dirty, status, data, rfl⟩ | ⟨rs, sends, i, rfl⟩
    · exact .inl ⟨rfl, _, rfl⟩
    · exact .inr ⟨rfl, nofun, rfl, rfl⟩
  | gated hp ht => exact .inl (ht ▸ ⟨rfl, _, rfl⟩)
  | opens hp hi ht => exact .inl (ht ▸ ⟨rfl, _, rfl⟩)
  | closes hp hi ht => exact .inl (ht ▸ ⟨rfl, _, rfl⟩)
  | responds status data hp hi hst ht => exact .inl (ht ▸ ⟨rfl, _, rfl⟩)
  | takesKey k hp hi hc ht => exact .inl (ht ▸ ⟨rfl, _, rfl⟩)
  | writes status data buf dirty hp hi hst hb hw ht => exact .inl (ht ▸ ⟨rfl, _, rfl⟩)

theorem kmStep_cidx (s : State) : (kmStep s).cidx = s.cidx := by
  rw [kmStep_frame]

/-- Settles O48: of a step's moves only a completed command and an illegal word advance the index, each by one. -/
theorem commandIndexAdvances : Obligations.CommandIndexAdvances := by
  refine ⟨fun i s t h => exec_completes h, fun s t h => ?_⟩
  rcases step_cases h with ⟨-, rfl⟩ | ⟨-, -, rfl⟩ | ⟨-, -, c, rest, -, ⟨i, -, he⟩ | ⟨why, cause, -, rfl⟩⟩
  · exact .inl (kmStep_cidx s.advance)
  · exact .inl rfl
  · rcases exec_completes he with ⟨hc, -⟩ | ⟨-, -, hc, -⟩
    · exact .inr hc
    · exact .inl hc
  · exact .inr rfl

theorem exec_cfg {i : Instr} {s t : State} (h : exec i s = .next t) : t.cfg = s.cfg := by
  cases exec_answer h with
  | flushes hp hi =>
    subst hi
    rcases execFlush_next hp h with ⟨rs, dirty, status, data, rfl⟩ | ⟨rs, sends, i, rfl⟩ <;> rfl
  | gated hp ht => rw [ht, State.complete_cfg]
  | opens hp hi ht => rw [ht, State.complete_cfg, State.opened_cfg]
  | closes hp hi ht => rw [ht, State.complete_cfg, State.shut_cfg]
  | responds status data hp hi hst ht => rw [ht, State.complete_cfg]
  | takesKey k hp hi hc ht => rw [ht, State.complete_cfg]
  | writes status data buf dirty hp hi hst hb hw ht => rw [ht, State.complete_cfg]

theorem kmStep_cfg (s : State) : (kmStep s).cfg = s.cfg := by
  rw [kmStep_frame]

/-- Settles O49. -/
theorem configurationNeverWritten : Obligations.ConfigurationNeverWritten := by
  intro s t h
  rcases step_cases h with ⟨-, rfl⟩ | ⟨-, -, rfl⟩ | ⟨-, -, c, rest, -, ⟨i, -, he⟩ | ⟨why, cause, -, rfl⟩⟩
  · exact kmStep_cfg s.advance
  · rfl
  · exact exec_cfg (s := { s.advance with port := rest }) he
  · rfl

end Sys2Proof.Machine
end

section
/-! PROOFS. The header bytes (R17). -/

namespace Sys2Proof.Machine

/-- Bytes 0..2 of a buffer are outside the payload (R17). -/
theorem linear_header_not_payload (i : Fin 7) {k : Fin 8} (h : k.val < 3) :
    ¬(linear i k < bufferSpace ∧ 3 ≤ linear i k % 8) := by
  simp only [linear]
  omega

/-- A command that leaves an open session open writes payload bytes only. -/
theorem exec_byteAt_of_not_payload {i : Instr} {s t : State} (hs : s.phase = .opened) (ht : t.phase = .opened)
    (h : exec i s = .next t) {a : Nat} (ha : ¬(a < bufferSpace ∧ 3 ≤ a % 8)) : t.byteAt a = s.byteAt a := by
  cases exec_answer h with
  | gated hp he => rw [he]; rfl
  | opens hp hi he => rw [hs] at hp; cases hp
  | closes hp hi he => rw [he] at ht; cases ht
  | responds status data hp hi hst he => rw [he]; rfl
  | takesKey k hp hi hc he => rw [he]; rfl
  | writes status data buf dirty hp hi hst hb hw he => rw [he]; exact hb a ha
  | flushes hp hi =>
    subst hi
    rcases execFlush_next hp h with ⟨rs, dirty, status, data, rfl⟩ | ⟨rs, sends, i, rfl⟩ <;> rfl

/-- Only OPEN opens a closed session (R125). -/
theorem exec_opens {i : Instr} {s t : State} (hs : s.phase = .closed) (ht : t.phase = .opened) (h : exec i s = .next t) :
    t = s.opened.complete .ok .none := by
  cases exec_answer h with
  | opens hp hi he => exact he
  | gated hp he => simp [he, hs] at ht
  | responds status data hp hi hst he => simp [he, hs] at ht
  | closes hp hi he => simp [hs] at hp
  | takesKey k hp hi hc he => simp [hs] at hp
  | writes status data buf dirty hp hi hst hb hw he => simp [hs] at hp
  | flushes hp hi => simp [hs] at hp

theorem exec_keeps_headers {i : Instr} {s t : State} (h : HeadersFixed s) (he : exec i s = .next t) : HeadersFixed t := by
  intro ht i k hk
  cases hs : s.phase with
  | opened => 
    rw [exec_cfg he, ← h hs i k hk]
    exact exec_byteAt_of_not_payload hs ht he (linear_header_not_payload i hk)
  | closed =>
    rw [exec_opens hs ht he]
    exact Memory.read_ofTemplate s.cfg.data.template i k

theorem kmStep_keeps_headers {s : State} (h : HeadersFixed s) : HeadersFixed (kmStep s) := by
  rw [kmStep_frame]
  exact h

theorem template_header (c : Config) (i : Fin 7) : c.data.template[i][0] = 0x02 := by
  have hp := Config.passes c .wfTemplateHdr
  simp only [ConfigData.passes, List.all_eq_true, beq_iff_eq] at hp
  exact hp _ (by simp)

/-- Settles O53: OPEN writes the template's headers, and every other command that leaves a session open writes payload bytes
only. -/
theorem headersNeverChange : Obligations.HeadersNeverChange := by
  refine ⟨fun s t hs h => ?_, fun s i hs hp => ?_, fun i s t hs ht h b k hk => ?_⟩
  · rcases step_cases h with ⟨-, rfl⟩ | ⟨-, -, rfl⟩ | ⟨-, -, c, rest, -, ⟨i, -, he⟩ | ⟨why, cause, -, rfl⟩⟩
    · exact kmStep_keeps_headers (s := s.advance) hs
    · exact hs
    · exact exec_keeps_headers (s := { s.advance with port := rest }) hs he
    · exact hs
  · exact ⟨(hs hp i 0 (by decide)).trans (template_header s.cfg i), hs hp i 1 (by decide), hs hp i 2 (by decide)⟩
  · exact exec_byteAt_of_not_payload hs ht h (linear_header_not_payload b hk)

end Sys2Proof.Machine
end
section
/-! PROOFS. The machine's invariant (R17, R22, R27, R42, R46, R108, R109, R151). -/

namespace Sys2Proof.Machine

/-- Settles O51: with no buffers, no monitor and an empty log there is nothing to violate. -/
theorem resetInvariant : Obligations.ResetInvariant where
  bufferSpace := ⟨Memory.nil_wf, nofun⟩
  headers := nofun
  monitor := ⟨fun _ => ⟨rfl, rfl, rfl⟩, nofun⟩
  terminated := nofun
  failures := nofun
  log := nofun
  waits h := absurd rfl h
  absent _ := ⟨rfl, rfl⟩

theorem readErrLimit_pos (c : Config) : 0 < c.data.policy.readErrLimit :=
  of_decide_eq_true (Config.passes c .wfLimit)

/-! ### What the schedule, the port and a response leave -/

section
variable {s : State} (h : s.Inv)
include h

/-- The invariant does not look at the host's commands, the schedule, the answers to Send, the index or the response. -/
theorem State.Inv.of_same {t : State}
    (ht : t = { s with port := t.port, sched := t.sched, ticks := t.ticks, sends := t.sends, cidx := t.cidx, resp := t.resp }) :
    t.Inv := by
  obtain ⟨bufferSpace, headers, monitor, terminated, failures, log, waits, absent⟩ := h
  rw [ht]
  exact ⟨bufferSpace, headers, monitor, terminated, failures, log, waits, absent⟩

theorem State.Inv.complete (status : Status) (data : RespData) : (s.complete status data).Inv := h.of_same rfl

/-! ### The moves of KM -/

/-- A running monitor, whose session is open, may move within what R108 and R109 allow. -/
theorem State.Inv.withMonitor (hm : s.mon = .running) {mon : Monitor} {chan : Channel} {errcnt : Nat}
    {reports : List (Option ReportOutcome)} {kmWait : Bool} (hstop : mon ≠ .stopped)
    (hterm : mon = .terminated → chan = .empty) (hfail : mon = .running → errcnt < s.cfg.data.policy.readErrLimit) :
    State.Inv { s with mon := mon, chan := chan, errcnt := errcnt, reports := reports, kmWait := kmWait } where
  bufferSpace := h.bufferSpace
  headers := h.headers
  monitor := by
    refine ⟨fun hp => ?_, fun _ => hstop⟩
    have hs := (h.monitor.1 hp).1
    rw [hm] at hs
    cases hs
  terminated := hterm
  failures := hfail
  log := h.log
  waits := h.waits
  absent := h.absent

/-- A monitor that goes on running need only stay below the limit. -/
theorem State.Inv.stillRunning (hm : s.mon = .running) {chan : Channel} {errcnt : Nat} {reports : List (Option ReportOutcome)}
    {kmWait : Bool} (hlt : errcnt < s.cfg.data.policy.readErrLimit) :
    State.Inv { s with chan := chan, errcnt := errcnt, reports := reports, kmWait := kmWait } :=
  h.withMonitor hm (by simp [hm]) (by simp [hm]) fun _ => hlt

theorem State.Inv.takeReport (hm : s.mon = .running) (r : ReportOutcome) : (s.takeReport r).Inv := by
  have hpos := readErrLimit_pos s.cfg
  cases r with
  | timeout => exact h.stillRunning hm hpos
  | transportError =>
    simp only [State.takeReport]
    split
    · exact h.withMonitor hm nofun (fun _ => rfl) nofun
    · rename_i hlt
      exact h.stillRunning hm (Nat.lt_of_not_le hlt)
  | report x =>
    simp only [State.takeReport]
    split <;> exact h.stillRunning hm hpos

theorem State.Inv.kmStep : (kmStep s).Inv := by
  rcases kmStep_cases s with ⟨-, hk⟩ | ⟨hm, -, -, hk⟩ | ⟨hm, -, r, -, hk⟩ <;> rw [hk]
  · exact h
  · exact h.stillRunning hm (h.failures hm)
  · exact State.Inv.takeReport (s := { s with reports := s.reports.tail }) (h.stillRunning hm (h.failures hm)) hm r

/-! ### The commands -/

theorem State.Inv.opened : s.opened.Inv where
  bufferSpace := ⟨Memory.ofTemplate_wf _, fun _ => Memory.mem_ofTemplate⟩
  headers _ i k _ := s.opened_bufByte i k
  monitor := ⟨nofun, fun _ => nofun⟩
  terminated := nofun
  failures _ := readErrLimit_pos s.cfg
  log := h.log
  waits _ := rfl
  absent := nofun

/-- CLOSE is run only by a CP that does not wait (R151). -/
theorem State.Inv.shut (hw : s.cpWait = none) : s.shut.Inv where
  bufferSpace := ⟨Memory.nil_wf, nofun⟩
  headers := nofun
  monitor := ⟨fun _ => ⟨rfl, rfl, rfl⟩, nofun⟩
  terminated := nofun
  failures := nofun
  log := h.log
  waits hne := absurd hw hne
  absent _ := ⟨rfl, rfl⟩

theorem State.Inv.withEmptyChannel (hp : s.phase = .opened) : State.Inv { s with chan := .empty } where
  bufferSpace := h.bufferSpace
  headers := h.headers
  monitor := ⟨fun hc => by simp [hp] at hc, h.monitor.2⟩
  terminated _ := rfl
  failures := h.failures
  log := h.log
  waits := h.waits
  absent := h.absent

/-- While a session is open, payload bytes and the dirty mask may change. -/
theorem State.Inv.withBuffers (hp : s.phase = .opened) {buf : Memory} {dirty : BitVec 7}
    (hb : ∀ a, ¬(a < Machine.bufferSpace ∧ 3 ≤ a % 8) → buf.read a = s.byteAt a)
    (hw : BufferSpaceWf { s with buf := buf }) :
    State.Inv { s with buf := buf, dirty := dirty } where
  bufferSpace := hw
  headers ho i k hk := (hb _ (linear_header_not_payload i hk)).trans (h.headers ho i k hk)
  monitor := h.monitor
  terminated := h.terminated
  failures := h.failures
  log := h.log
  waits := h.waits
  absent hc := by simp [hp] at hc

end

/-- The records of a FLUSH carry on the numbering (log 11). -/
theorem sendRecords_seq (s : State) (n : Nat) (rs : List (Fin 7 × SendOutcome)) (k : Nat) (r : SendRecord)
    (h : (sendRecords s n rs)[k]? = some r) : r.seq = n + k := by
  induction rs generalizing n k with
  | nil => simp [sendRecords] at h
  | cons p rs ih =>
    cases k with
    | zero =>
      simp only [sendRecords, List.getElem?_cons_zero, Option.some.injEq] at h
      rw [← h, Nat.add_zero]
    | succ k =>
      rw [ih (n + 1) k h]
      omega

theorem afterSends_logNumbered {s : State} (h : LogNumbered s) (rs : List (Fin 7 × SendOutcome)) :
    LogNumbered (s.afterSends rs) := by
  intro n r hr
  simp only [State.afterSends] at hr
  rcases Nat.lt_or_ge n s.sendlog.length with hn | hn
  · rw [List.getElem?_append_left hn] at hr
    exact h n r hr
  · rw [List.getElem?_append_right hn] at hr
    have hseq := sendRecords_seq s _ rs _ r hr
    omega

/-- While a session is open, sends may be logged, the mask written, and CP left waiting. -/
theorem State.Inv.afterFlush {s : State} (h : s.Inv) (hp : s.phase = .opened) (rs : List (Fin 7 × SendOutcome))
    (dirty : BitVec 7) (sends : List (Option SendOutcome)) (cpWait : Option (Fin 7)) :
    State.Inv { s.afterSends rs with dirty := dirty, sends := sends, cpWait := cpWait } where
  bufferSpace := h.bufferSpace
  headers := h.headers
  monitor := h.monitor
  terminated := h.terminated
  failures := h.failures
  log := afterSends_logNumbered h.log rs
  waits _ := hp
  absent hc := by simp [State.afterSends, hp] at hc

theorem exec_keeps_inv {i : Instr} {s t : State} (h : s.Inv) (hw : s.cpWait = none) (he : exec i s = .next t) : t.Inv := by
  cases exec_answer he with
  | gated hp ht => exact ht ▸ h.complete _ _
  | opens hp hi ht => exact ht ▸ h.opened.complete _ _
  | closes hp hi ht => exact ht ▸ (h.shut hw).complete _ _
  | responds status data hp hi hst ht => exact ht ▸ h.complete _ _
  | takesKey k hp hi hc ht => exact ht ▸ (h.withEmptyChannel hp).complete _ _
  | writes status data buf dirty hp hi hst hb hbw ht => exact ht ▸ (h.withBuffers hp hb (hbw h.bufferSpace)).complete _ _
  | flushes hp hi =>
    subst hi
    rcases execFlush_next hp he with ⟨rs, dirty, status, data, rfl⟩ | ⟨rs, sends, i, rfl⟩
    · exact (h.afterFlush hp rs dirty _ _).complete status data
    · exact h.afterFlush hp rs _ sends (some i)

/-- Settles O52: each agent's move keeps it; a command runs only when CP does not wait, so CLOSE leaves no wait behind. -/
theorem stepKeepsInvariant : Obligations.StepKeepsInvariant := by
  intro s t h hstep
  have hadv : s.advance.Inv := h.of_same rfl
  rcases step_cases hstep with ⟨-, rfl⟩ | ⟨-, -, rfl⟩ | ⟨-, hw, c, rest, -, ⟨i, -, he⟩ | ⟨why, cause, -, rfl⟩⟩
  · exact hadv.kmStep
  · exact hadv
  · exact exec_keeps_inv (s := { s.advance with port := rest }) (h.of_same rfl) hw he
  · exact (h.of_same (t := { s.advance with port := rest }) rfl).complete _ _

end Sys2Proof.Machine
end

section
/-! PROOFS. The two agents keep apart: KM reads and writes the keypad part of the state, and a command that leaves the keypad
alone reads and writes none of it (R57, R112, R133). -/

namespace Sys2Proof.Machine

/-- What KM's step reads, the configuration aside: the monitor, the channel, the failure count, its own control point and answers,
and the step number that indexes the free answers (R112, log 5, 9). -/
structure KeypadPart where
  mon : Monitor
  chan : Channel
  errcnt : Nat
  reports : List (Option ReportOutcome)
  kmWait : Bool
  ticks : Nat

/-- The keypad part of a state. -/
def State.keypadPart (s : State) : KeypadPart where
  mon := s.mon
  chan := s.chan
  errcnt := s.errcnt
  reports := s.reports
  kmWait := s.kmWait
  ticks := s.ticks

/-- A state with another keypad part in place of its own. -/
def State.withKeypad (s : State) (k : KeypadPart) : State :=
  { s with mon := k.mon, chan := k.chan, errcnt := k.errcnt, reports := k.reports, kmWait := k.kmWait, ticks := k.ticks }

/-! ### KM moves within the keypad part (R106, R112) -/

theorem State.takeReport_withKeypad {s t : State} (hc : t.cfg = s.cfg) (r : ReportOutcome) :
    (t.withKeypad s.keypadPart).takeReport r = t.withKeypad (s.takeReport r).keypadPart := by
  have hcfg : (t.withKeypad s.keypadPart).cfg.data = s.cfg.data := congrArg Config.data hc
  have herr : (t.withKeypad s.keypadPart).errcnt = s.errcnt := rfl
  cases r with
  | timeout => rfl
  | transportError =>
    simp only [State.takeReport, hcfg, herr]
    split <;> rfl
  | report x =>
    simp only [State.takeReport, hcfg]
    split <;> rfl

/-- KM does in any state with the keypad part and the configuration of s what it does in s. -/
theorem kmStep_withKeypad {s t : State} (hc : t.cfg = s.cfg) :
    kmStep (t.withKeypad s.keypadPart) = t.withKeypad (kmStep s).keypadPart := by
  have hrun : ((t.withKeypad s.keypadPart).mon = .running ∧ (t.withKeypad s.keypadPart).kmWait = false) =
      (s.mon = .running ∧ s.kmWait = false) := rfl
  have hnext : (t.withKeypad s.keypadPart).nextReport = s.nextReport := rfl
  simp only [kmStep, hrun, hnext]
  split
  · cases s.nextReport with
    | none => rfl
    | some r => exact State.takeReport_withKeypad (s := { s with reports := s.reports.tail }) hc r
  · rfl

theorem kmStep_eq_withKeypad (s : State) : kmStep s = s.withKeypad (kmStep s).keypadPart :=
  kmStep_withKeypad (s := s) rfl

/-- What KM does to the monitor and the failure count does not depend on the channel. -/
theorem State.takeReport_withChannel (s : State) (ch : Channel) (r : ReportOutcome) :
    (State.takeReport { s with chan := ch } r).mon = (s.takeReport r).mon ∧
      (State.takeReport { s with chan := ch } r).errcnt = (s.takeReport r).errcnt := by
  cases r with
  | timeout => exact ⟨rfl, rfl⟩
  | transportError =>
    simp only [State.takeReport]
    split <;> exact ⟨rfl, rfl⟩
  | report x =>
    simp only [State.takeReport]
    split <;> exact ⟨rfl, rfl⟩

theorem kmStep_withChannel (s : State) (ch : Channel) :
    (kmStep { s with chan := ch }).mon = (kmStep s).mon ∧ (kmStep { s with chan := ch }).errcnt = (kmStep s).errcnt := by
  have hnext : State.nextReport { s with chan := ch } = s.nextReport := rfl
  simp only [kmStep, hnext]
  split
  · cases s.nextReport with
    | none => exact ⟨rfl, rfl⟩
    | some r => exact State.takeReport_withChannel { s with reports := s.reports.tail } ch r
  · exact ⟨rfl, rfl⟩

/-- Settles O33: the replaced parts are outside the keypad part, which is all that KM reads and writes. -/
theorem keypadSeparation : Obligations.KeypadSeparation := by
  intro s m d p l n r ch
  refine ⟨?_, kmStep_frame s, kmStep_withChannel s ch⟩
  rw [kmStep_eq_withKeypad s]
  exact kmStep_withKeypad (s := s) (t := { s with buf := m, dirty := d, phase := p, sendlog := l, cidx := n, resp := r }) rfl

/-! ### What the keypad part is, a command that leaves it alone does not see -/

/-- A meaning that neither reads nor writes the keypad part: with another one put in its place it gives the same next state, with
that one in its place. -/
def IgnoresKeypad (body : State → Outcome) : Prop :=
  ∀ (s t : State) (k : KeypadPart), body s = .next t → body (s.withKeypad k) = .next (t.withKeypad k)

/-- What such a meaning leaves of the keypad part: all of it. -/
theorem IgnoresKeypad.keeps {body : State → Outcome} (hb : IgnoresKeypad body) {s t : State} (h : body s = .next t) :
    t = t.withKeypad s.keypadPart := by
  have hn := h.symm.trans (hb s t s.keypadPart h)
  injection hn

theorem ignoresKeypad_complete {f : State → State} {status : Status} {data : State → RespData}
    (hf : ∀ s k, f (s.withKeypad k) = (f s).withKeypad k) (hd : ∀ s k, data (s.withKeypad k) = data s) :
    IgnoresKeypad fun s => .next ((f s).complete status (data s)) := by
  intro s t k h
  cases h
  simp only [hf, hd]
  rfl

theorem IgnoresKeypad.whenOpen {body : State → Outcome} (hb : IgnoresKeypad body) : IgnoresKeypad fun s => whenOpen s body := by
  intro s t k h
  rcases whenOpen_next h with ⟨hp, h⟩ | ⟨hp, rfl⟩
  · exact (whenOpen_opened (s := s.withKeypad k) hp body).trans (hb s t k h)
  · exact whenOpen_closed (s := s.withKeypad k) hp body

theorem ignoresKeypad_setBits (ws : List BitWrite) : IgnoresKeypad (setBits ws) := by
  induction ws with
  | nil => exact ignoresKeypad_complete (fun _ _ => rfl) fun _ _ => rfl
  | cons w ws ih =>
    obtain ⟨_ | r, on⟩ := w
    · exact fun s t k h => nomatch h
    · intro s t k h
      by_cases hid : 1 ≤ r.id.toNat ∧ r.id.toNat ≤ 7
      · by_cases hoff : r.off < 40
        · simp only [setBits, if_pos hid, if_pos hoff] at h ⊢
          exact ih _ t k h
        · simp only [setBits, if_pos hid, if_neg hoff] at h
          cases h
      · simp only [setBits, if_neg hid] at h ⊢
        cases h
        rfl

/-- The shape of SYM, TDIG, TCHR and BCHR: the range check and the SET_BITs come from the operands and the configuration. -/
theorem ignoresKeypad_setter (bad : Config → Prop) [DecidablePred bad] (status : Status) (info : Byte)
    (writes : Config → List BitWrite) :
    IgnoresKeypad fun s => whenOpen s fun s => if bad s.cfg then raise status info s else setBits (writes s.cfg) s := by
  refine IgnoresKeypad.whenOpen fun s t k h => ?_
  have hcfg : (s.withKeypad k).cfg = s.cfg := rfl
  simp only [hcfg]
  by_cases hbad : bad s.cfg
  · simp only [if_pos hbad] at h ⊢
    cases h
    rfl
  · simp only [if_neg hbad] at h ⊢
    exact ignoresKeypad_setBits _ s t k h

/-! ### LOAD -/

theorem State.loadByte_withKeypad (s : State) (j : Nat) (v : Byte) (k : KeypadPart) :
    (s.withKeypad k).loadByte j v = (s.loadByte j v).withKeypad k := by
  unfold State.loadByte
  split <;> rfl

theorem State.loadBytes_withKeypad (s : State) (j : Nat) (vs : List Byte) (k : KeypadPart) :
    (s.withKeypad k).loadBytes j vs = (s.loadBytes j vs).withKeypad k := by
  induction vs generalizing s j with
  | nil => rfl
  | cons v vs ih => rw [State.loadBytes, State.loadByte_withKeypad, ih, State.loadBytes]

theorem loadLoop_withKeypad (n j : Nat) (ts : List (List Byte)) (s : State) (k : KeypadPart) :
    loadLoop n j ts (s.withKeypad k) = ((loadLoop n j ts s).1.withKeypad k, (loadLoop n j ts s).2) := by
  simp only [loadLoop_eq, State.loadBytes_withKeypad]

theorem ignoresKeypad_loadProgressive (text : List Byte) : IgnoresKeypad (loadProgressive text) := by
  intro s t k h
  simp only [loadProgressive, loadLoop_withKeypad] at h ⊢
  generalize loadLoop stateTokens 0 (tokenize text) s = loopEnd at h ⊢
  obtain ⟨u, badPlace⟩ := loopEnd
  cases badPlace with
  | none => cases h; rfl
  | some j => cases h; rfl

theorem ignoresKeypad_loadAtomic (text : List Byte) : IgnoresKeypad (loadAtomic text) := by
  intro s t k h
  simp only [loadAtomic, loadLoop_withKeypad] at h ⊢
  generalize firstBad stateTokens 0 (tokenize text) = badPlace at h ⊢
  cases badPlace with
  | none => cases h; rfl
  | some j => cases h; rfl

theorem ignoresKeypad_execLoad (text : List Byte) : IgnoresKeypad (execLoad text) := by
  refine IgnoresKeypad.whenOpen fun s t k h => ?_
  have hcfg : (s.withKeypad k).cfg = s.cfg := rfl
  rw [hcfg]
  generalize s.cfg.data.policy.loadAtomic = atomic at h ⊢
  cases atomic with
  | true => exact ignoresKeypad_loadAtomic text s t k h
  | false => exact ignoresKeypad_loadProgressive text s t k h

/-! ### FLUSH -/

/-- An end of the sends with another keypad part in the state they leave. -/
def FlushEnd.withKeypad (k : KeypadPart) : FlushEnd → FlushEnd
  | .sentAll s => .sentAll (s.withKeypad k)
  | .failed i s => .failed i (s.withKeypad k)
  | .waiting i s => .waiting i (s.withKeypad k)

theorem flushLoop_withKeypad (snap : BitVec 7) (is : List (Fin 7)) (s : State) (k : KeypadPart) :
    flushLoop snap is (s.withKeypad k) = (flushLoop snap is s).withKeypad k := by
  induction is generalizing s with
  | nil => rfl
  | cons i is ih =>
    have hnext : (s.withKeypad k).nextSend = s.nextSend := rfl
    simp only [flushLoop, hnext]
    split
    · cases s.nextSend with
      | none => rfl
      | some o =>
        cases o with
        | ok => exact ih (s.logSend i .ok)
        | transportError => rfl
    · exact ih s

theorem State.dirtyAfterFailure_withKeypad (s : State) (k : KeypadPart) :
    (s.withKeypad k).dirtyAfterFailure = s.dirtyAfterFailure.withKeypad k := by
  rw [State.dirtyAfterFailure_eq, State.dirtyAfterFailure_eq]
  rfl

theorem ignoresKeypad_execFlush : IgnoresKeypad execFlush := by
  refine IgnoresKeypad.whenOpen fun s t k h => ?_
  have hdirty : (s.withKeypad k).dirty = s.dirty := rfl
  rw [hdirty, flushLoop_withKeypad]
  generalize flushLoop s.dirty bufferIndices s = sendsEnd at h ⊢
  cases sendsEnd with
  | sentAll u => cases h; rfl
  | failed i u =>
    cases h
    simp only [FlushEnd.withKeypad, State.dirtyAfterFailure_withKeypad]
    rfl
  | waiting i u => cases h; rfl

/-! ### Every command that leaves the keypad alone -/

/-- All commands but OPEN, CLOSE and GETKEY (R112, R133). -/
theorem exec_ignoresKeypad {i : Instr} (hi : leavesKeypad i = true) : IgnoresKeypad (exec i) := by
  cases i with
  | openSession => cases hi
  | closeSession => cases hi
  | getkey timeout => cases hi
  | sym sym on =>
    exact ignoresKeypad_setter (fun c => c.data.nsym ≤ sym.toNat) .invalidSymbol sym fun c => [(symRef c.data sym.toNat, on)]
  | tdig pos mask =>
    exact ignoresKeypad_setter (fun _ => 10 < pos.toNat) .invalidPosition pos fun c => digitWrites c.data pos.toNat mask
  | tchr pos mask =>
    exact ignoresKeypad_setter (fun _ => 7 < pos.toNat) .invalidPosition pos fun c => charWrites c.data .top pos.toNat mask
  | bchr pos mask =>
    exact ignoresKeypad_setter (fun _ => 3 < pos.toNat) .invalidPosition pos fun c => charWrites c.data .bot pos.toNat mask
  | clear => exact (ignoresKeypad_complete (fun _ _ => rfl) fun _ _ => rfl).whenOpen
  | flush => exact ignoresKeypad_execFlush
  | save => exact (ignoresKeypad_complete (f := id) (fun _ _ => rfl) fun _ _ => rfl).whenOpen
  | load text => exact ignoresKeypad_execLoad text
  | fontd ch => exact ignoresKeypad_complete (f := id) (fun _ _ => rfl) fun _ _ => rfl
  | fontc ch => exact ignoresKeypad_complete (f := id) (fun _ _ => rfl) fun _ _ => rfl

/-- Settles O55: a KM step puts another keypad part in place, the command does not see it, and KM finds in the state after the
command the keypad part it had before. -/
theorem keypadStepsCommute : Obligations.KeypadStepsCommute := by
  intro i s t hi h
  have hkm : kmStep t = t.withKeypad (kmStep s).keypadPart := by
    rw [(exec_ignoresKeypad hi).keeps h, kmStep_withKeypad (exec_cfg h)]
    rfl
  rw [kmStep_eq_withKeypad s, hkm]
  exact exec_ignoresKeypad hi s t _ h

end Sys2Proof.Machine
end

section
/-! PROOFS. The opcode map row by row, and the decoder and encoder read through it (R64 to R71, R85). -/

namespace Sys2Proof

/-- Settles O1, command by command. -/
theorem decodeEncodeRoundTrip : Obligations.DecodeEncodeRoundTrip := by
  intro i
  cases i with
  | openSession => exact Laws.DecodeEncode.openSession
  | closeSession => exact Laws.DecodeEncode.closeSession
  | sym sym on => exact Laws.DecodeEncode.sym sym on
  | tdig pos mask => exact Laws.DecodeEncode.tdig pos mask
  | tchr pos mask => exact Laws.DecodeEncode.tchr pos mask
  | bchr pos mask => exact Laws.DecodeEncode.bchr pos mask
  | clear => exact Laws.DecodeEncode.clear
  | flush => exact Laws.DecodeEncode.flush
  | save => exact Laws.DecodeEncode.save
  | load text => exact Laws.DecodeEncode.load text
  | getkey timeout => exact Laws.DecodeEncode.getkey timeout
  | fontd char => exact Laws.DecodeEncode.fontd char
  | fontc char => exact Laws.DecodeEncode.fontc char

/-! ### At most one row selects a word (R71) -/

/-- The OP values of the map are distinct. -/
theorem opRow_eq_of_op {r r' : OpRow} (hr : r ∈ opRows) (hr' : r' ∈ opRows)
    (h : fieldOp r.pattern = fieldOp r'.pattern) : r = r' :=
  List.inj_on_of_nodup_map (f := fun r : OpRow => fieldOp r.pattern) (l := opRows) (by decide) hr hr' h

theorem opRow_eq_of_selects {r r' : OpRow} (hr : r ∈ opRows) (hr' : r' ∈ opRows) {w : CmdWord} (h : r.selects w = true)
    (h' : r'.selects w = true) : r = r' :=
  opRow_eq_of_op hr hr' ((OpRow.selects_op hr h).symm.trans (OpRow.selects_op hr' h'))

theorem decode_of_selects {r : OpRow} (hr : r ∈ opRows) {w : CmdWord} (h : r.selects w = true) (text : List Byte) :
    decode w text = .ok (r.command (fieldA w) (fieldB w) text) := by
  obtain ⟨r', hf⟩ := Option.isSome_iff_exists.mp
    (List.find?_isSome (p := fun r : OpRow => r.selects w).mpr ⟨r, hr, h⟩)
  have hs' : r'.selects w = true := List.find?_some (p := fun r : OpRow => r.selects w) hf
  have hrr' : r = r' := opRow_eq_of_selects hr (List.mem_of_find?_eq_some hf) h hs'
  simp only [decode, hf, hrr']

/-- A word no row selects is no command; its OP says why (R71). -/
theorem decode_of_unselected {w : CmdWord} (h : ∀ r ∈ opRows, ¬r.selects w = true) (text : List Byte) :
    (fieldOp w ∈ legalOps → decode w text = .error .reservedBits) ∧
      (fieldOp w ∉ legalOps → decode w text = .error .opcode) := by
  refine ⟨fun hop => ?_, decode_illegalOp w text⟩
  obtain ⟨r, hr, hrop⟩ := List.mem_map.mp hop
  have hany : opRows.any (fun r => fieldOp r.pattern == fieldOp w) = true :=
    List.any_eq_true.mpr ⟨r, hr, beq_iff_eq.mpr hrop⟩
  simp only [decode, List.find?_eq_none.mpr h, hany, if_true]

theorem decode_eq_ok_iff {w : CmdWord} {text : List Byte} {i : Instr} :
    decode w text = .ok i ↔ ∃ r ∈ opRows, r.selects w = true ∧ i = r.command (fieldA w) (fieldB w) text := by
  constructor
  · intro h
    by_cases hsel : ∃ r ∈ opRows, r.selects w = true
    · obtain ⟨r, hr, hs⟩ := hsel
      rw [decode_of_selects hr hs] at h
      exact ⟨r, hr, hs, (Except.ok.inj h).symm⟩
    · obtain ⟨hres, hop⟩ := decode_of_unselected (fun r hr hs => hsel ⟨r, hr, hs⟩) text
      by_cases hl : fieldOp w ∈ legalOps
      · cases (hres hl).symm.trans h
      · cases (hop hl).symm.trans h
  · rintro ⟨r, hr, hs, rfl⟩
    exact decode_of_selects hr hs text

/-! ### A selected word is its command's word (R67, R85) -/

theorem symFlag_of_reserved_zero {b : Half} (h : b &&& 0xFFFE = 0) : (if subOn b then 1 else 0 : Half) = b := by
  refine BitVec.eq_of_getLsbD_eq fun i hi => ?_
  have hmask : ∀ i < 16, (0xFFFE : Half).getLsbD i = decide (i ≠ 0) := by decide
  have hbit := congrArg (BitVec.getLsbD · i) h
  rw [BitVec.getLsbD_and, hmask i hi] at hbit
  by_cases hi0 : i = 0
  · subst hi0
    unfold subOn
    cases b.getLsbD 0 <;> rfl
  · have hb : b.getLsbD i = false := by simpa [hi0] using hbit
    rw [hb]
    split <;> simp [BitVec.getLsbD_one, hi0]

theorem lowByte_of_reserved_zero {b : Half} (h : b &&& 0xFF00 = 0) : (subM8 b).setWidth 16 = b := by
  refine BitVec.eq_of_getLsbD_eq fun i hi => ?_
  have hmask : ∀ i < 16, (0xFF00 : Half).getLsbD i = decide (8 ≤ i) := by decide
  have hbit := congrArg (BitVec.getLsbD · i) h
  rw [BitVec.getLsbD_and, hmask i hi] at hbit
  by_cases hi8 : 8 ≤ i
  · have hb : b.getLsbD i = false := by simpa [hi8] using hbit
    simp [subM8, hb, hi8]
  · have hi' : i < 8 := by omega
    simp [subM8, hi, hi']

theorem packWord_eq {w : CmdWord} {op a : Byte} {b : Half} (hop : fieldOp w = op) (ha : fieldA w = a) (hb : fieldB w = b) :
    packWord op a b = w := by
  rw [← hop, ← ha, ← hb, packWord_fields]

/-- The command a row builds from a word it selects has that word. -/
theorem encodeWord_command {r : OpRow} (hr : r ∈ opRows) {w : CmdWord} (hs : r.selects w = true) (text : List Byte) :
    encodeWord (r.command (fieldA w) (fieldB w) text) = w := by
  have hop := OpRow.selects_op hr hs
  obtain ⟨-, ha, hb⟩ := (r.selects_iff w).mp hs
  have hA : fieldA r.mask = 0xFF → fieldA w = fieldA r.pattern := fun h => by rwa [h, and_ones8] at ha
  have hB : fieldB r.mask = 0xFFFF → fieldB w = fieldB r.pattern := fun h => by rwa [h, and_ones16] at hb
  simp only [opRows, List.mem_cons, List.not_mem_nil, or_false] at hr
  rcases hr with rfl | rfl | rfl | rfl | rfl | rfl | rfl | rfl | rfl | rfl | rfl | rfl | rfl
  · exact packWord_eq hop (hA rfl) (hB rfl)
  · exact packWord_eq hop (hA rfl) (hB rfl)
  · exact packWord_eq hop rfl (symFlag_of_reserved_zero hb).symm
  · exact packWord_eq hop rfl (lowByte_of_reserved_zero hb).symm
  · exact packWord_eq hop rfl rfl
  · exact packWord_eq hop rfl rfl
  · exact packWord_eq hop (hA rfl) (hB rfl)
  · exact packWord_eq hop (hA rfl) (hB rfl)
  · exact packWord_eq hop (hA rfl) (hB rfl)
  · exact packWord_eq hop (hA rfl) (hB rfl)
  · exact packWord_eq hop (hA rfl) rfl
  · exact packWord_eq hop rfl (hB rfl)
  · exact packWord_eq hop rfl (hB rfl)

/-- Settles O2. -/
theorem decodedWordReencodes : Obligations.DecodedWordReencodes := by
  intro w text i h
  obtain ⟨r, hr, hs, rfl⟩ := decode_eq_ok_iff.mp h
  exact encodeWord_command hr hs text

/-! ### The map written out in numbers (R65, R67) -/

theorem fieldOp_toNat (w : CmdWord) : (fieldOp w).toNat = w.toNat / 2 ^ 24 := by
  have := w.isLt
  rw [fieldOp, BitVec.extractLsb'_toNat, Nat.shiftRight_eq_div_pow]
  omega

theorem fieldOp_eq_iff {v w : CmdWord} : fieldOp v = fieldOp w ↔ v.toNat / 2 ^ 24 = w.toNat / 2 ^ 24 := by
  rw [← BitVec.toNat_inj, fieldOp_toNat, fieldOp_toNat]

theorem fieldA_eq_ofNat (w : CmdWord) : fieldA w = BitVec.ofNat 8 (w.toNat / 2 ^ 16) := by
  rw [fieldA, BitVec.extractLsb', Nat.shiftRight_eq_div_pow]

theorem fieldB_eq_ofNat (w : CmdWord) : fieldB w = BitVec.ofNat 16 w.toNat := rfl

theorem subM8_fieldB (w : CmdWord) : subM8 (fieldB w) = BitVec.ofNat 8 w.toNat := by
  refine BitVec.eq_of_toNat_eq ?_
  simp [subM8, fieldB]

/-- What each row says of a word: pattern, mask and the command it builds. -/
def rowReadings (w : CmdWord) (text : List Byte) : List (CmdWord × CmdWord × Instr) :=
  opRows.map fun r => (r.pattern, r.mask, r.command (fieldA w) (fieldB w) text)

theorem selects_eq_true_iff {r : OpRow} {w : CmdWord} : r.selects w = true ↔ w &&& r.mask = r.pattern := beq_iff_eq

/-- The rule of R71 over the map as the model holds it. -/
theorem decode_of_rowReadings (w : CmdWord) (text : List Byte) :
    (∀ r ∈ rowReadings w text, w &&& r.2.1 = r.1 →
      decode w text = .ok r.2.2 ∧ ∀ r' ∈ rowReadings w text, w &&& r'.2.1 = r'.1 → r' = r) ∧
    ((∀ r ∈ rowReadings w text, w &&& r.2.1 ≠ r.1) →
      ((∃ r ∈ rowReadings w text, w.toNat / 2 ^ 24 = r.1.toNat / 2 ^ 24) → decode w text = .error .reservedBits) ∧
      ((∀ r ∈ rowReadings w text, w.toNat / 2 ^ 24 ≠ r.1.toNat / 2 ^ 24) → decode w text = .error .opcode)) := by
  constructor
  · intro x hx hs
    obtain ⟨r, hr, rfl⟩ := List.mem_map.mp hx
    have hs := selects_eq_true_iff.mpr hs
    refine ⟨decode_of_selects hr hs text, fun x' hx' hs' => ?_⟩
    obtain ⟨r', hr', rfl⟩ := List.mem_map.mp hx'
    rw [opRow_eq_of_selects hr' hr (selects_eq_true_iff.mpr hs') hs]
  · intro hnone
    obtain ⟨hres, hop⟩ := decode_of_unselected (w := w)
      (fun r hr hs => hnone _ (List.mem_map_of_mem hr) (selects_eq_true_iff.mp hs)) text
    refine ⟨fun ⟨x, hx, h⟩ => ?_, fun h => hop fun hl => ?_⟩
    · obtain ⟨r, hr, rfl⟩ := List.mem_map.mp hx
      exact hres (List.mem_map.mpr ⟨r, hr, (fieldOp_eq_iff.mpr h).symm⟩)
    · obtain ⟨r, hr, hr'⟩ := List.mem_map.mp hl
      exact h _ (List.mem_map_of_mem hr) (fieldOp_eq_iff.mp hr'.symm)

/-- Settles O3: the rows written out are the readings of the model's map, whose fields are those numbers of the word. -/
theorem decodeFollowsOpcodeMap : Obligations.DecodeFollowsOpcodeMap := by
  intro w text
  rw [← fieldA_eq_ofNat, ← subM8_fieldB]
  exact decode_of_rowReadings w text

end Sys2Proof
end

section
/-! PROOFS. What a word that is no command does, and the word the host places (R64, R69, R70). -/

namespace Sys2Proof.Machine

/-- Settles O4. -/
theorem illegalOpcodeCompletes : Obligations.IllegalOpcodeCompletes := by
  intro s w text rest hw hp hop
  have hl : fieldOp w ∉ legalOps := by
    rw [← fieldOp_toNat] at hop
    intro hmem
    have hlegal : ∀ op ∈ legalOps, op.toNat ∈ [1, 2, 16, 17, 18, 19, 20, 32, 48, 49, 64, 80, 81] := by decide
    have := hlegal _ hmem
    simp only [List.mem_cons, List.not_mem_nil, or_false] at this
    omega
  exact cpStep_of_illegal (why := .opcode) hw hp (decode_illegalOp w text hl)

/-- Settles O5: the row with the word's OP does not select it, and no other row can. -/
theorem reservedBitCompletes : Obligations.ReservedBitCompletes := by
  intro s w text rest pattern mask hw hp hrow hop hne
  obtain ⟨r, hr, hpm⟩ := List.mem_map.mp (show (pattern, mask) ∈ opRows.map fun r => (r.pattern, r.mask) from hrow)
  obtain ⟨rfl, rfl⟩ := Prod.mk.inj hpm
  have hopr : fieldOp w = fieldOp r.pattern := fieldOp_eq_iff.mpr hop
  have hnone : ∀ r' ∈ opRows, ¬r'.selects w = true := by
    intro r' hr' hs'
    have hrr' : r' = r := opRow_eq_of_op hr' hr ((OpRow.selects_op hr' hs').symm.trans hopr)
    exact hne (selects_eq_true_iff.mp (hrr' ▸ hs'))
  exact cpStep_of_illegal (why := .reservedBits) hw hp
    ((decode_of_unselected hnone text).1 (List.mem_map.mpr ⟨r, hr, hopr.symm⟩))

/-- Settles O6. -/
theorem sampleWordsDecode : Obligations.SampleWordsDecode := by
  unfold Obligations.SampleWordsDecode
  decide

theorem decode_of_decodeTableWord {n w : Nat} {i : Instr} (h : decodeTableWord n w = some i) :
    decode (BitVec.ofNat 32 (w % 2 ^ n)) [] = .ok i := by
  unfold decodeTableWord at h
  split at h
  · rename_i hd
    rw [hd, Option.some.inj h]
  · cases h

/-- Settles O10: CP is scheduled and not waiting, and the placed word stands first on the port. -/
theorem fetchedWordRuns : Obligations.FetchedWordRuns := by
  intro s w i h
  rw [step_of_cp (s := s.withFetchWord 32 w) rfl]
  exact cpStep_of_decoded (s := (s.withFetchWord 32 w).advance) rfl rfl (decode_of_decodeTableWord h)

end Sys2Proof.Machine
end

section
/-! PROOFS. The persisted-state text: its format, its tokens, and that LOAD reads back what SAVE renders (R82, R83, R118 to
R122). -/

namespace Sys2Proof.Machine

/-- Of blocks of m elements each, element n of block i stands at place m * i + n. -/
theorem getElem?_flatMap_of_length {α β : Type} {f : α → List β} {m : Nat} (l : List α) (h : ∀ x ∈ l, (f x).length = m)
    (i n : Nat) (hn : n < m) : (l.flatMap f)[m * i + n]? = l[i]?.bind fun x => (f x)[n]? := by
  induction l generalizing i with
  | nil => rfl
  | cons x l ih =>
    have hx : (f x).length = m := h x List.mem_cons_self
    rw [List.flatMap_cons]
    cases i with
    | zero => rw [Nat.mul_zero, Nat.zero_add, List.getElem?_append_left (by omega)]; rfl
    | succ i =>
      have hplace : m * (i + 1) + n = m + (m * i + n) := by rw [Nat.mul_succ]; omega
      rw [hplace, List.getElem?_append_right (by omega), hx, Nat.add_sub_cancel_left,
        ih fun y hy => h y (List.mem_cons_of_mem _ hy)]
      rfl

theorem State.buffer_get (s : State) (i : Fin 7) (k : Fin 8) : (s.buffer i).toList[k.val]? = some (s.bufByte i k) := by
  fin_cases k <;> rfl

/-! ### What SAVE renders (R82) -/

theorem renderLine_length {vs : List Byte} (h : vs ≠ []) : (renderLine vs).length = 5 * vs.length := by
  fun_induction renderLine vs with
  | case1 => exact absurd rfl h
  | case2 v => rfl
  | case3 v w vs ih => simp [renderToken, ih (List.cons_ne_nil w vs)]; omega

/-- Each byte of a line takes five places: its token, and LF after the last byte or else a space. -/
theorem renderLine_get {vs : List Byte} {k : Nat} {v : Byte} (hk : vs[k]? = some v) {n : Nat} (hn : n < 5) :
    (renderLine vs)[5 * k + n]? = (renderToken v ++ [if k + 1 = vs.length then 0x0A else 0x20])[n]? := by
  fun_induction renderLine vs generalizing k with
  | case1 => cases hk
  | case2 u =>
    cases k with
    | zero => cases hk; simp
    | succ k => cases hk
  | case3 u w vs ih =>
    have htok : (renderToken u ++ [0x20]).length = 5 := rfl
    rw [← List.singleton_append, ← List.append_assoc]
    cases k with
    | zero =>
      rw [List.getElem?_append_left (by omega)]
      cases hk
      simp
    | succ k =>
      rw [List.getElem?_append_right (by omega), htok, show 5 * (k + 1) + n - 5 = 5 * k + n by omega, ih hk]
      simp

theorem savedLine_length (s : State) (i : Fin 7) : (renderLine (s.buffer i).toList).length = 40 :=
  renderLine_length (List.cons_ne_nil _ _)

theorem State.savedText_eq (s : State) : s.savedText = (List.finRange 7).flatMap fun i => renderLine (s.buffer i).toList :=
  List.flatMap_map ..

theorem State.savedText_length (s : State) : s.savedText.length = 280 := by
  simp [s.savedText_eq, List.length_flatMap, savedLine_length]

/-- The five places of buf[i][k] in the text of SAVE. -/
theorem State.savedText_get (s : State) (i : Fin 7) (k : Fin 8) {n : Nat} (hn : n < 5) :
    s.savedText[40 * i.val + 5 * k.val + n]? =
      (renderToken (s.bufByte i k) ++ [if k.val = 7 then 0x0A else 0x20])[n]? := by
  have hi : (List.finRange 7)[i.val]? = some i := by simp
  rw [s.savedText_eq, Nat.add_assoc, getElem?_flatMap_of_length _ (fun i _ => savedLine_length s i) _ _ (by omega), hi,
    Option.bind_some, renderLine_get (s.buffer_get i k) hn]
  simp

theorem exec_save_opened {s : State} (h : s.phase = .opened) :
    exec .save s = .next (s.complete .ok (.text s.savedText)) :=
  whenOpen_opened h fun s => returnOk (.text s.savedText) s

/-- Settles O40. -/
theorem saveTextFormat : Obligations.SaveTextFormat := by
  intro s hp
  refine ⟨s.savedText, exec_save_opened hp, s.savedText_length, fun i k => ?_⟩
  have hdigit : ∀ n < 16, some (hexDigit n) =
      ([0x30, 0x31, 0x32, 0x33, 0x34, 0x35, 0x36, 0x37, 0x38, 0x39, 0x61, 0x62, 0x63, 0x64, 0x65, 0x66] : List Byte)[n]? := by
    decide
  have hlt := (s.bufByte i k).isLt
  exact ⟨s.savedText_get i k (n := 0) (by decide), s.savedText_get i k (n := 1) (by decide),
    (s.savedText_get i k (n := 2) (by decide)).trans (hdigit _ (by omega)),
    (s.savedText_get i k (n := 3) (by decide)).trans (hdigit _ (by omega)), s.savedText_get i k (n := 4) (by decide)⟩

/-! ### The tokens of a text (R83) -/

theorem isSpace_iff (b : Byte) : isSpace b = true ↔ b ∈ ([0x20, 0x09, 0x0A, 0x0B, 0x0C, 0x0D] : List Byte) := by
  revert b
  decide

theorem hexValue_eq_some_iff (d : Byte) (n : Nat) : hexValue d = some n ↔
    (n < 10 ∧ d.toNat = 0x30 + n) ∨ (10 ≤ n ∧ n < 16 ∧ (d.toNat = 0x61 + (n - 10) ∨ d.toNat = 0x41 + (n - 10))) := by
  unfold hexValue
  simp only [BitVec.le_def, BitVec.toNat_ofNat, Nat.reducePow, Nat.reduceMod]
  split
  · simp only [Option.some.injEq]; omega
  · split
    · simp only [Option.some.injEq]; omega
    · split
      · simp only [Option.some.injEq]; omega
      · simp only [reduceCtorEq, false_iff]; omega

/-- A valid token is '0', 'x' or 'X' and two hex digits; its value is theirs. -/
theorem tokenValue_eq_some_iff (t : List Byte) (v : Byte) : tokenValue t = some v ↔
    ∃ (x h l : Byte) (hi lo : Nat), t = [0x30, x, h, l] ∧ (x = 0x78 ∨ x = 0x58) ∧ hexValue h = some hi ∧
      hexValue l = some lo ∧ v.toNat = 16 * hi + lo := by
  have hlt : ∀ {d : Byte} {n : Nat}, hexValue d = some n → n < 16 := fun hd => by
    rw [hexValue_eq_some_iff] at hd
    omega
  constructor
  · intro ht
    unfold tokenValue at ht
    split at ht
    · rename_i z x h l
      split at ht
      · rename_i hzx
        obtain ⟨rfl, hx⟩ := hzx
        split at ht
        · rename_i hi lo hhi hlo
          have := hlt hhi
          have := hlt hlo
          refine ⟨x, h, l, hi, lo, rfl, hx, hhi, hlo, ?_⟩
          rw [← Option.some.inj ht, BitVec.toNat_ofNat]
          omega
        · cases ht
      · cases ht
    · cases ht
  · rintro ⟨x, h, l, hi, lo, rfl, hx, hhi, hlo, hv⟩
    simp only [tokenValue, hx, hhi, hlo, ← hv, BitVec.ofNat_toNat, BitVec.setWidth_eq, and_self, if_true]

/-- Settles O41. -/
theorem tokenRule : Obligations.TokenRule := by
  have notSpace : ∀ {t : List Byte}, (∀ b ∈ t, b ∉ ([0x20, 0x09, 0x0A, 0x0B, 0x0C, 0x0D] : List Byte)) →
      ∀ b ∈ t, isSpace b = false := fun ht b hb => by
    rw [← Bool.not_eq_true, isSpace_iff]
    exact ht b hb
  refine ⟨tokenize_nil, fun w hw rest => tokenize_space w ((isSpace_iff w).mpr hw) rest, fun t hne ht => ?_, fun t v => ?_⟩
  · exact ⟨tokenize_token t hne (notSpace ht),
      fun w hw rest => tokenize_token_space t hne (notSpace ht) w ((isSpace_iff w).mpr hw) rest⟩
  · simp only [← hexValue_eq_some_iff]
    exact tokenValue_eq_some_iff t v

/-! ### LOAD of a whole text, and of the text of SAVE (R119 to R122) -/

theorem State.loadBytes_dirty_of_full (s : State) {vs : List Byte} (h : vs.length = stateTokens) :
    (s.loadBytes 0 vs).dirty = allDirty := by
  have hall : ∀ i < 7, ((List.range' 0 stateTokens).any fun x => decide (3 ≤ x % 8) && x / 8 == i) = true ∧
      allDirty.getLsbD i = true := by decide
  refine BitVec.eq_of_getLsbD_eq fun i hi => ?_
  rw [s.loadBytes_dirty 0 vs i hi, h, (hall i hi).1, (hall i hi).2, Bool.or_true]

/-- Under either policy LOAD of a text with all its tokens stores them and marks every buffer dirty. -/
theorem exec_load_of_full {s : State} (hp : s.phase = .opened) {text : List Byte} (h : (loadValues text).length = stateTokens) :
    exec (.load text) s = .next (((s.loadBytes 0 (loadValues text)).setDirty allDirty).complete .ok .none) := by
  change execLoad text s = _
  rcases execLoad_cases text s with ⟨hc, -⟩ | ⟨-, -, -, hn⟩ | ⟨-, -, -, hn⟩ | ⟨-, hlt, -⟩ | ⟨-, hlt, -⟩
  · rw [hp] at hc
    cases hc
  · rw [hn, ← s.loadBytes_dirty_of_full h]
    rfl
  · exact hn
  · exact absurd h (Nat.ne_of_lt hlt)
  · exact absurd h (Nat.ne_of_lt hlt)

/-- The 56 bytes of the buffers, in the order of their linear addresses. -/
def State.allBytes (s : State) : List Byte := (List.finRange 7).flatMap fun i => (s.buffer i).toList

theorem State.allBytes_length (s : State) : s.allBytes.length = stateTokens := by
  simp [State.allBytes, List.length_flatMap, stateTokens]

theorem State.allBytes_get (s : State) (i : Fin 7) (k : Fin 8) : s.allBytes[linear i k]? = some (s.bufByte i k) := by
  have hi : (List.finRange 7)[i.val]? = some i := by simp
  rw [State.allBytes, linear, getElem?_flatMap_of_length _ (fun i _ => Vector.length_toList) _ _ k.isLt, hi, Option.bind_some,
    s.buffer_get]

theorem loadValues_savedText (s : State) : loadValues s.savedText = s.allBytes := by
  rw [loadValues, State.savedText, tokenize_renderText, ← List.flatMap_def]
  exact goodValues_renderToken _ _ s.allBytes_length.symm

/-- Settles O45: the text's tokens are the saved bytes, whose headers the loading session already has. -/
theorem saveLoadRoundTrip : Obligations.SaveLoadRoundTrip := by
  intro s t u text hs hu hwf hhead hsave hresp
  have htext : text = s.savedText := by
    rw [exec_save_opened hs] at hsave
    cases hsave
    cases hresp
    rfl
  subst htext
  refine ⟨_, exec_load_of_full hu ?_, rfl, rfl, fun i k => ?_⟩
  · rw [loadValues_savedText, s.allBytes_length]
  · change (u.loadBytes 0 (loadValues s.savedText)).byteAt (linear i k) = s.bufByte i k
    have hmod : linear i k % 8 = k.val := by
      rw [linear]
      omega
    rw [u.loadBytes_byteAt 0 _ hwf, loadValues_savedText, Nat.sub_zero, s.allBytes_get, hmod]
    by_cases hk : 3 ≤ k.val
    · rw [if_pos ⟨Nat.zero_le _, hk⟩, Option.getD_some]
    · rw [if_neg fun h => hk h.2]
      exact hhead i k (by omega)

end Sys2Proof.Machine
end

section
/-! PROOFS. Disassembly reads back: a printed command is a line that assembles to the command (R84 to R88, log 18). -/

namespace Sys2Proof.Machine

/-! ### Reading a line's words -/

/-- A character the lexer takes into the word it is reading: no semicolon, blank or comma, and neither quote (0x22, 0x27). -/
def isWordChar (c : Char) : Bool := c ≠ ';' && !isBlank c && c ≠ ',' && c ≠ '\x22' && c ≠ '\x27'

theorem lex_word {w : List Char} (hw : w.all isWordChar = true) (cs acc : List Char) :
    lex (w ++ cs) (.word acc) = lex cs (.word (w.reverse ++ acc)) := by
  induction w generalizing acc with
  | nil => rfl
  | cons c w ih =>
    obtain ⟨hc, hw⟩ := Bool.and_eq_true_iff.mp ((List.all_cons ..).symm.trans hw)
    simp only [isWordChar, Bool.and_eq_true, Bool.not_eq_true', decide_eq_true_eq] at hc
    obtain ⟨⟨⟨⟨hsemi, hblank⟩, hcomma⟩, hquote⟩, htick⟩ := hc
    rw [List.cons_append, lex, if_neg hsemi, hblank, if_neg Bool.false_ne_true, if_neg hcomma, if_neg hquote, if_neg htick, ih hw]
    simp

/-- A word, a blank, and the tokens after it. -/
theorem lex_word_space {w : List Char} (hw : w.all isWordChar = true) (hne : w ≠ []) (cs : List Char) :
    lex (w ++ ' ' :: cs) (.word []) = (lex cs (.word [])).map (.word w :: ·) := by
  have hend : endWord w.reverse = (.word w :: ·) := by
    funext ts
    simp [endWord, hne]
  rw [lex_word hw, List.append_nil, ← hend]
  rfl

/-- A printed number at the end of the line. -/
theorem lex_number (n v : Nat) : lex (hexLiteral n v) (.word []) = some [.word (hexLiteral n v)] := by
  have h := lex_hexLiteral n v []
  rw [List.append_nil] at h
  rw [h, lex, endWord]
  simp [hexLiteral]

/-- A printed number and the comma after it. -/
theorem lex_number_comma (n v : Nat) (cs : List Char) :
    lex (hexLiteral n v ++ ',' :: ' ' :: cs) (.word []) =
      (lex cs (.word [])).map fun ts => .word (hexLiteral n v) :: .comma :: ts := by
  have hend : (fun ts => endWord (hexLiteral n v).reverse (.comma :: ts)) =
      fun ts => .word (hexLiteral n v) :: .comma :: ts := by
    funext ts
    simp [endWord, hexLiteral]
  rw [lex_hexLiteral, ← hend]
  exact congrArg (Option.map _) (Option.map_id' (x := lex cs (.word [])))

/-! ### From tokens to a line (R85) -/

theorem mnemonic_reads : ∀ e ∈ mnemonicTable, e.1.all isWordChar = true ∧ e.1 ≠ [] ∧
    mnemonicTable.lookup (e.1.map Char.toUpper) = some e.2 := by decide

/-- A mnemonic, a space and operands that the lexer, the comma rule and the mnemonic accept. -/
theorem parseLine_operands {w : List Char} {m : Mnemonic} (he : (w, m) ∈ mnemonicTable) {cs : List Char}
    {ts ops : List AsmToken} {l : AsmLine} (hlex : lex cs (.word []) = some ts) (hops : operandList ts = some ops)
    (hline : lineOf m ops = some l) : parseLine (w ++ ' ' :: cs) = .line l := by
  obtain ⟨hw, hne, hlookup⟩ := mnemonic_reads _ he
  simp only [parseLine, lex_word_space hw hne, hlex, Option.map_some, hlookup, hops, hline]

/-- A mnemonic of one numeric operand, its number printed in n + 1 digits. -/
theorem parseLine_number {w : List Char} {m : Mnemonic} (he : (w, m) ∈ mnemonicTable) {n v : Nat} (hv : v < 16 ^ (n + 1))
    {line : Nat → AsmLine} (hline : ∀ a, lineOf m [a] = (numericOperand a).map line) :
    parseLine (w ++ ' ' :: hexLiteral (n + 1) v) = .line (line v) := by
  have ha : numericOperand (.word (hexLiteral (n + 1) v)) = some v := numberValue_hexLiteral n v hv
  exact parseLine_operands he (lex_number _ _) rfl (by rw [hline, ha, Option.map_some])

/-- A mnemonic of two numeric operands, their numbers printed in n + 1 and k + 1 digits. -/
theorem parseLine_numbers {w : List Char} {m : Mnemonic} (he : (w, m) ∈ mnemonicTable) {n k v u : Nat}
    (hv : v < 16 ^ (n + 1)) (hu : u < 16 ^ (k + 1)) {line : Nat → Nat → AsmLine}
    (hline : ∀ a b, lineOf m [a, b] = (numericOperand a).bind fun p => (numericOperand b).map (line p)) :
    parseLine (w ++ ' ' :: (hexLiteral (n + 1) v ++ ',' :: ' ' :: hexLiteral (k + 1) u)) = .line (line v u) := by
  have ha : numericOperand (.word (hexLiteral (n + 1) v)) = some v := numberValue_hexLiteral n v hv
  have hb : numericOperand (.word (hexLiteral (k + 1) u)) = some u := numberValue_hexLiteral k u hu
  have hlex := (lex_number_comma (n + 1) v (hexLiteral (k + 1) u)).trans (congrArg _ (lex_number _ _))
  exact parseLine_operands he hlex rfl (by rw [hline, ha, hb, Option.bind_some, Option.map_some])

/-! ### The line of a command -/

/-- The assembler line a command is printed as. -/
def instrLine : Instr → AsmLine
  | .openSession => .openSession
  | .closeSession => .closeSession
  | .sym s on => .sym s.toNat (if on then 1 else 0)
  | .tdig p m => .tdig p.toNat m.toNat
  | .tchr p m => .tchr p.toNat m.toNat
  | .bchr p m => .bchr p.toNat m.toNat
  | .clear => .clear
  | .flush => .flush
  | .save => .save
  | .load t => .load t
  | .getkey t => .getkey t.toNat
  | .fontd c => .fontd c.toNat
  | .fontc c => .fontc c.toNat

theorem parseLine_sym (s : Byte) (on : Bool) : parseLine (printInstr (.sym s on)) = .line (instrLine (.sym s on)) := by
  have hs : numericOperand (.word (hexLiteral 2 s.toNat)) = some s.toNat := numberValue_hexLiteral 1 _ s.isLt
  have hflag : lex [if on then '1' else '0'] (.word []) = some [.word [if on then '1' else '0']] ∧
      onOperand (.word [if on then '1' else '0']) = some (if on then 1 else 0) := by
    cases on <;> decide
  have hlex := (lex_number_comma 2 s.toNat [if on then '1' else '0']).trans (congrArg _ hflag.1)
  refine parseLine_operands (w := ['S', 'Y', 'M']) (m := .sym) (by decide) hlex rfl ?_
  simp only [lineOf, hs, hflag.2, Option.bind_some, Option.map_some, instrLine]

theorem parseLine_load (text : List Byte) (h : ∀ b ∈ text, b.toNat < 128) :
    parseLine (printInstr (.load text)) = .line (.load text) := by
  have hlex : lex ('\x22' :: (text.flatMap stringChars ++ ['\x22'])) (.word []) = some [.str text] :=
    (lex_stringLiteral text h [] []).trans rfl
  exact parseLine_operands (w := ['L', 'O', 'A', 'D']) (m := .load) (by decide) hlex rfl rfl

/-- What disassembly prints is read as the command's line. -/
theorem parseLine_printInstr (i : Instr) (h : ∀ text, i = .load text → ∀ b ∈ text, b.toNat < 128) :
    parseLine (printInstr i) = .line (instrLine i) := by
  cases i with
  | openSession => rfl
  | closeSession => rfl
  | clear => rfl
  | flush => rfl
  | save => rfl
  | sym s on => exact parseLine_sym s on
  | load text => exact parseLine_load text (h text rfl)
  | tdig p m =>
    exact parseLine_numbers (w := ['T', 'D', 'I', 'G']) (m := .tdig) (n := 1) (k := 1) (by decide) p.isLt m.isLt fun _ _ => rfl
  | tchr p m =>
    exact parseLine_numbers (w := ['T', 'C', 'H', 'R']) (m := .tchr) (n := 1) (k := 3) (by decide) p.isLt m.isLt fun _ _ => rfl
  | bchr p m =>
    exact parseLine_numbers (w := ['B', 'C', 'H', 'R']) (m := .bchr) (n := 1) (k := 3) (by decide) p.isLt m.isLt fun _ _ => rfl
  | getkey t =>
    exact parseLine_number (w := ['G', 'E', 'T', 'K', 'E', 'Y']) (m := .getkey) (n := 3) (by decide) t.isLt fun _ => rfl
  | fontd c =>
    exact parseLine_number (w := ['F', 'O', 'N', 'T', 'D']) (m := .fontd) (n := 1) (by decide) c.isLt fun _ => rfl
  | fontc c =>
    exact parseLine_number (w := ['F', 'O', 'N', 'T', 'C']) (m := .fontc) (n := 1) (by decide) c.isLt fun _ => rfl

/-! ### Assembling the line (R85) -/

theorem assemble_of_wf (c : ConfigData) {l : AsmLine} (h : l.wf = true) :
    assemble c l = some ((lineCommands c l).map encode) := if_pos h

theorem assemble_of_not_wf (c : ConfigData) {l : AsmLine} (h : l.wf = false) : assemble c l = none :=
  if_neg (by simp [h])

theorem assemble_single (c : ConfigData) {l : AsmLine} {i : Instr} (h : l.wf = true) (hl : lineCommands c l = [i]) :
    assemble c l = some [encode i] := by
  rw [assemble_of_wf c h, hl, List.map_singleton]

theorem instrLine_wf (i : Instr) : (instrLine i).wf = true := by
  cases i with
  | openSession => rfl
  | closeSession => rfl
  | clear => rfl
  | flush => rfl
  | save => rfl
  | load t => rfl
  | sym s on => exact decide_eq_true ⟨s.isLt, by cases on <;> decide⟩
  | tdig p m => exact decide_eq_true ⟨p.isLt, m.isLt⟩
  | tchr p m => exact decide_eq_true ⟨p.isLt, m.isLt⟩
  | bchr p m => exact decide_eq_true ⟨p.isLt, m.isLt⟩
  | getkey t => exact decide_eq_true t.isLt
  | fontd c => exact decide_eq_true c.isLt
  | fontc c => exact decide_eq_true c.isLt

theorem lineCommands_instrLine (c : ConfigData) (i : Instr) : lineCommands c (instrLine i) = [i] := by
  cases i with
  | sym s on => cases on <;> simp [instrLine, lineCommands]
  | _ => simp [instrLine, lineCommands]

theorem assemble_instrLine (c : ConfigData) (i : Instr) : assemble c (instrLine i) = some [encode i] :=
  assemble_single c (instrLine_wf i) (lineCommands_instrLine c i)

theorem disassemble_encode (i : Instr) : disassemble (encode i) = printInstr i := by
  rw [disassemble, decodeEncodeRoundTrip i]

/-- Settles O59. -/
theorem disassemblyReassembles : Obligations.DisassemblyReassembles := by
  intro c i h
  refine ⟨instrLine i, ?_, assemble_instrLine c i⟩
  rw [disassemble_encode, parseLine_printInstr i h]

/-! ### The pseudo-instructions (R87) -/

/-- A string assembles to its commands, the n-th one that of its n-th byte at the n-th position from p. -/
theorem assemble_string (c : ConfigData) {setter : Byte → Half → Instr} {stringLine : AsmLine}
    {charLine : Nat → Byte → AsmLine} {p : Nat} {str : List Byte} (hwf : stringLine.wf = true) (hstr : lineCommands c stringLine = stringCommands c setter p str)
    (hcwf : ∀ n < str.length, ∀ ch, (charLine (p + n) ch).wf = true)
    (hchar : ∀ q ch, lineCommands c (charLine q ch) = [setter (BitVec.ofNat 8 q) (fontChar c ch)]) :
    ∃ words, assemble c stringLine = some words ∧ words.length = str.length ∧
      ∀ n ch, str[n]? = some ch → ∃ w, words[n]? = some w ∧ assemble c (charLine (p + n) ch) = some [w] := by
  refine ⟨_, assemble_of_wf c hwf, ?_, fun n ch hn => ⟨_, ?_,
    assemble_single c (hcwf n (List.getElem?_eq_some_iff.mp hn).1 ch) (hchar (p + n) ch)⟩⟩
  · rw [hstr, List.length_map, stringCommands_length]
  · rw [hstr, List.getElem?_map, stringCommands_get, hn]
    rfl

theorem fontChar_of_answer {s t : State} {ch : Byte} {g : Half} (h : exec (.fontc ch) s = .next t)
    (hr : t.resp = some ⟨.ok, .half g⟩) : fontChar s.cfg.data ch = g := by
  cases h
  cases hr
  rfl

theorem fontDigit_of_answer {s t : State} {ch g : Byte} (h : exec (.fontd ch) s = .next t)
    (hr : t.resp = some ⟨.ok, .byte g⟩) : fontDigit s.cfg.data ch = g := by
  cases h
  cases hr
  rfl

/-- Settles O60, row by row of R87's table. -/
theorem glyphPseudoInstructions : Obligations.GlyphPseudoInstructions := by
  refine ⟨fun c x => ⟨?_, ?_, ?_⟩, fun c => rfl, fun s t p ch => ⟨fun g h hg => ?_, fun g h hg => ?_⟩,
    fun c p str => ⟨fun h => ?_, fun h => ?_, fun h => ?_, fun h => ?_⟩⟩
  · exact assemble_single c (decide_eq_true x.isLt) (by simp [lineCommands])
  · exact assemble_single c (decide_eq_true x.isLt) (by simp [lineCommands])
  · exact assemble_single c (decide_eq_true x.isLt) (by simp [lineCommands])
  · rw [← fontChar_of_answer h hg]
    exact ⟨assemble_single _ (decide_eq_true p.isLt) (by simp [lineCommands]),
      assemble_single _ (decide_eq_true p.isLt) (by simp [lineCommands])⟩
  · rw [← fontDigit_of_answer h hg]
    exact assemble_single _ (decide_eq_true p.isLt) (by simp [lineCommands])
  · exact assemble_string c (charLine := .tchrc) (decide_eq_true h) rfl (fun n hn ch => decide_eq_true (by omega)) fun _ _ => rfl
  · exact assemble_of_not_wf c (decide_eq_false (by omega))
  · exact assemble_string c (charLine := .bchrc) (decide_eq_true h) rfl (fun n hn ch => decide_eq_true (by omega)) fun _ _ => rfl
  · exact assemble_of_not_wf c (decide_eq_false (by omega))

end Sys2Proof.Machine
end

section
/-! PROOFS. What the font lookups answer, byte by byte, and their commands FONTD and FONTC (41_font.md). -/

namespace Sys2Proof.Machine

/-! ### font_digit (R89) -/

theorem fontDigitEntry_eq (c : ConfigData) (h : Fin 16) : fontDigitEntry c h = c.fontDigit[h] := by
  rw [fontDigitEntry, Vector.getElem?_eq_getElem h.isLt, Option.getD_some, Fin.getElem_fin]

/-- font_digit with its ranges read as numbers. -/
theorem fontDigit_eq_ite (c : ConfigData) (ch : Byte) :
    fontDigit c ch =
      if 0x30 ≤ ch.toNat ∧ ch.toNat ≤ 0x39 then fontDigitEntry c (ch.toNat - 0x30)
      else if 0x61 ≤ ch.toNat ∧ ch.toNat ≤ 0x66 then fontDigitEntry c (ch.toNat - 0x61 + 10)
      else if 0x41 ≤ ch.toNat ∧ ch.toNat ≤ 0x46 then fontDigitEntry c (ch.toNat - 0x41 + 10)
      else 0 := rfl

theorem fontDigit_decimal (c : ConfigData) {ch : Byte} {h : Fin 16} (hlt : h.val < 10) (hch : ch.toNat = 0x30 + h.val) :
    fontDigit c ch = c.fontDigit[h] := by
  rw [fontDigit_eq_ite, if_pos (by omega), show ch.toNat - 0x30 = h.val by omega, fontDigitEntry_eq]

theorem fontDigit_lower (c : ConfigData) {ch : Byte} {h : Fin 16} (hge : 10 ≤ h.val)
    (hch : ch.toNat = 0x61 + (h.val - 10)) : fontDigit c ch = c.fontDigit[h] := by
  rw [fontDigit_eq_ite, if_neg (by omega), if_pos (by omega), show ch.toNat - 0x61 + 10 = h.val by omega, fontDigitEntry_eq]

theorem fontDigit_upper (c : ConfigData) {ch : Byte} {h : Fin 16} (hge : 10 ≤ h.val)
    (hch : ch.toNat = 0x41 + (h.val - 10)) : fontDigit c ch = c.fontDigit[h] := by
  rw [fontDigit_eq_ite, if_neg (by omega), if_neg (by omega), if_pos (by omega), show ch.toNat - 0x41 + 10 = h.val by omega,
    fontDigitEntry_eq]

theorem fontDigit_other (c : ConfigData) {ch : Byte} (hdecimal : ¬(0x30 ≤ ch.toNat ∧ ch.toNat ≤ 0x39))
    (hlower : ¬(0x61 ≤ ch.toNat ∧ ch.toNat ≤ 0x66)) (hupper : ¬(0x41 ≤ ch.toNat ∧ ch.toNat ≤ 0x46)) :
    fontDigit c ch = 0 := by
  rw [fontDigit_eq_ite, if_neg hdecimal, if_neg hlower, if_neg hupper]

/-- Settles O11: the three ranges of hex digits are disjoint, so the order in which they are tested does not matter. -/
theorem fontDigitRule : Obligations.FontDigitRule := by
  refine fun c ch => ⟨fun h hdigit => ?_, fontDigit_other c⟩
  obtain ⟨hlt, hdecimal⟩ | ⟨hge, hlower | hupper⟩ := hdigit
  · exact fontDigit_decimal c hlt hdecimal
  · exact fontDigit_lower c hge hlower
  · exact fontDigit_upper c hge hupper

/-! ### font_char (R91) -/

/-- What the table answers for a code is one of the code's entries. -/
theorem mem_of_fontCharEntry {c : ConfigData} {ch : Byte} {glyph : Half} (h : fontCharEntry c ch = some glyph) :
    (ch, glyph) ∈ c.fontChar := by
  obtain ⟨l₁, l₂, heq, -⟩ := List.lookup_eq_some_iff.mp h
  simp [heq]

theorem fontCharEntry_eq_none_iff {c : ConfigData} {ch : Byte} :
    fontCharEntry c ch = none ↔ ∀ e ∈ c.fontChar, e.1 ≠ ch := by
  simp only [fontCharEntry, List.lookup_eq_none_iff, bne_iff_ne, ne_comm]

theorem fontChar_lampTest (c : ConfigData) : fontChar c 0xFF = 0xFFFF := if_pos rfl

theorem fontChar_of_ne {c : ConfigData} {ch : Byte} (h : ch ≠ 0xFF) : fontChar c ch = (fontCharEntry c ch).getD 0 := by
  rw [fontChar, if_neg h]
  cases fontCharEntry c ch <;> rfl

/-- Settles O12: a code with an entry has an answer from the table, and its entries all have the one glyph. -/
theorem fontCharRule : Obligations.FontCharRule := by
  refine fun c ch => ⟨fun h => ?_, fun glyph hne hmem huniq => ?_, fun hne hundef => ?_⟩
  · rw [h, fontChar_lampTest]
  · rw [fontChar_of_ne hne]
    cases hentry : fontCharEntry c ch with
    | none => exact absurd rfl (fontCharEntry_eq_none_iff.mp hentry _ hmem)
    | some g => exact huniq _ (mem_of_fontCharEntry hentry) rfl
  · rw [fontChar_of_ne hne, fontCharEntry_eq_none_iff.mpr hundef, Option.getD_none]

/-! ### FONTD and FONTC (R90, R92) -/

/-- Settles O13: neither command looks at the phase, and completing OK writes `cidx` and the response only. -/
theorem fontCommandsAnswer : Obligations.FontCommandsAnswer :=
  fun _ _ => ⟨rfl, rfl⟩

end Sys2Proof.Machine
end

section
/-! PROOFS. The payload bits SET_BITs write and keep, the coupling of the middle stroke, and the SET_BITs of the character
setters (R93, R94, R97 to R100). -/

namespace Sys2Proof.Machine

/-! ### One SET_BIT (R93) -/

theorem setBits_invalidCode {r : SegRef} (h : ¬(1 ≤ r.id.toNat ∧ r.id.toNat ≤ 7)) (on : Bool) (rest : List BitWrite)
    (s : State) : setBits ((some r, on) :: rest) s = raise .invalidCode r.id s := by
  rw [setBits, if_neg h]

/-- The byte of payload bit p of buffer index i is the one a SegmentRef names iff buffer and payload byte agree. -/
theorem payloadByte_eq_segAddress_iff {r : SegRef} (hr : r.off < 40) {i p : Nat} (hp : p < 40) :
    8 * i + (3 + p / 8) = segAddress r ↔ i = r.id.toNat - 1 ∧ p / 8 = r.off / 8 := by
  rw [segAddress]
  omega

theorem State.writeBit_payloadBit (s : State) (hwf : s.buf.wf) {r : SegRef} (hr : r.off < 40) (on : Bool) (i : Nat) {p : Nat}
    (hp : p < 40) :
    (s.writeBit r on).payloadBit i p = if i = r.id.toNat - 1 ∧ p = r.off then on else s.payloadBit i p := by
  have hbyte := payloadByte_eq_segAddress_iff hr (i := i) hp
  unfold State.payloadBit
  by_cases ha : 8 * i + (3 + p / 8) = segAddress r
  · obtain ⟨hi, hdiv⟩ := hbyte.mp ha
    have hbit : p % 8 = r.off % 8 ↔ i = r.id.toNat - 1 ∧ p = r.off := by omega
    rw [ha, s.writeBit_byteAt_eq r on hwf, putBit_getLsbD _ _ _ (Nat.mod_lt _ (by decide))]
    simp only [hbit]
  · have hother : ¬(i = r.id.toNat - 1 ∧ p = r.off) := fun ⟨hi, hoff⟩ => ha (hbyte.mpr ⟨hi, by rw [hoff]⟩)
    rw [s.writeBit_byteAt_ne r on _ ha, if_neg hother]

/-- Settles O14: an id outside 1..7 raises; a valid reference makes the one SET_BIT, whose bit, byte and dirty bit are known. -/
theorem setBitRule : Obligations.SetBitRule := by
  refine fun s b o on hwf ho => ⟨fun hb => setBits_invalidCode (r := ⟨b, o⟩) hb on [] s, fun hb => ?_⟩
  have hv : SegRef.valid ⟨b, o⟩ = true := (SegRef.valid_iff _).mpr ⟨hb.1, hb.2, ho⟩
  refine ⟨_, setBits_valid [(⟨b, o⟩, on)] s (by simpa using hv), rfl, fun i p _ hp => ?_, fun a ha => ?_, fun j hj => ?_⟩
  · exact s.writeBit_payloadBit hwf ho on i hp
  · exact s.writeBit_byteAt_ne ⟨b, o⟩ on a (by rw [segAddress, ← Nat.add_assoc]; exact ha)
  · rw [State.complete_dirty, s.writeBits_dirty _ j hj]
    simp [eq_comm, Bool.beq_eq_decide_eq]

/-! ### Several SET_BITs (R94) -/

theorem State.writeBits_append (s : State) (ws vs : List (SegRef × Bool)) :
    s.writeBits (ws ++ vs) = (s.writeBits ws).writeBits vs :=
  List.foldl_append

theorem State.writeBit_wf {s : State} (h : s.buf.wf) (r : SegRef) (on : Bool) : (s.writeBit r on).buf.wf :=
  Memory.write_wf h _ _

theorem State.writeBits_wf {s : State} (h : s.buf.wf) (ws : List (SegRef × Bool)) : (s.writeBits ws).buf.wf := by
  induction ws generalizing s with
  | nil => exact h
  | cons w ws ih => exact ih (State.writeBit_wf h w.1 w.2)

/-- Different buffer ids from 1 up have different buffer indices (R16). -/
theorem bufferIndex_eq_iff {a b : Byte} (ha : 1 ≤ a.toNat) (hb : 1 ≤ b.toNat) : a.toNat - 1 = b.toNat - 1 ↔ a = b := by
  rw [← BitVec.toNat_inj]
  omega

/-- A payload bit no SET_BIT of a list names keeps its value. -/
theorem State.writeBits_payloadBit_unnamed {s : State} (hwf : s.buf.wf) {ws : List (SegRef × Bool)}
    (hv : ∀ w ∈ ws, w.1.valid = true) {b : Byte} {o : Nat} (hb : 1 ≤ b.toNat) (ho : o < 40)
    (h : ∀ w ∈ ws, ¬(w.1.id = b ∧ w.1.off = o)) :
    (s.writeBits ws).payloadBit (b.toNat - 1) o = s.payloadBit (b.toNat - 1) o := by
  induction ws generalizing s with
  | nil => rfl
  | cons w ws ih =>
    obtain ⟨hid, -, hoff⟩ := (SegRef.valid_iff w.1).mp (hv w List.mem_cons_self)
    have hother : ¬(b.toNat - 1 = w.1.id.toNat - 1 ∧ o = w.1.off) := fun ⟨hi, ho⟩ =>
      h w List.mem_cons_self ⟨((bufferIndex_eq_iff hb hid).mp hi).symm, ho.symm⟩
    rw [State.writeBits_cons, ih (State.writeBit_wf hwf _ _) (fun v hm => hv v (List.mem_cons_of_mem _ hm))
      (fun v hm => h v (List.mem_cons_of_mem _ hm)), s.writeBit_payloadBit hwf hoff _ _ ho, if_neg hother]

/-- Settles O21: the writes before a SET_BIT keep the memory canonical, it puts its own bit, and writes that do not name a bit
keep it. -/
theorem laterWriteDecides : Obligations.LaterWriteDecides := by
  intro s before after r on hwf hv
  refine ⟨fun hlast => ?_, fun b o hb _ ho hnone => State.writeBits_payloadBit_unnamed hwf hv hb ho hnone⟩
  obtain ⟨hid, -, hoff⟩ := (SegRef.valid_iff r).mp (hv (r, on) (by simp))
  have hbefore := State.writeBits_wf hwf before
  have hafter : ∀ w ∈ after, w.1.valid = true := fun w hw => hv w (by simp [hw])
  rw [State.writeBits_append, State.writeBits_cons,
    State.writeBits_payloadBit_unnamed (State.writeBit_wf hbefore r on) hafter hid hoff hlast,
    State.writeBit_payloadBit _ hbefore hoff on _ hoff, if_pos ⟨rfl, rfl⟩]

/-! ### The coupling of the middle stroke (R97) -/

theorem flagM_eq_twoPow : flagM = BitVec.twoPow 16 6 := rfl

theorem flagLC_eq_twoPow : flagLC = BitVec.twoPow 16 10 := rfl

theorem flagRC_eq_twoPow : flagRC = BitVec.twoPow 16 11 := rfl

theorem and_flagM_ne_zero_iff (m : Half) : m &&& flagM ≠ 0 ↔ m.getLsbD 6 = true := by
  rw [flagM_eq_twoPow, BitVec.and_twoPow]
  cases m.getLsbD 6 <;> decide

/-- Settles O19: with M clear nothing is forced; with M set the two center joints are or-ed in, a single bit each. -/
theorem coupleRule : Obligations.CoupleRule := by
  intro m f
  rw [couple]
  by_cases h : m.getLsbD 6 = true
  · rw [if_pos ((and_flagM_ne_zero_iff m).mpr h), flagLC_eq_twoPow, flagRC_eq_twoPow, h, Bool.true_and]
    simp [BitVec.getLsbD_twoPow, Bool.or_assoc, eq_comm, Bool.beq_eq_decide_eq]
  · rw [if_neg (mt (and_flagM_ne_zero_iff m).mp h), Bool.eq_false_of_not_eq_true h, Bool.false_and, Bool.or_false]

/-! ### The character setters (R98 to R100) -/

/-- The SegmentRef of a flag at a character position, where the tables give one. -/
def charSeg (c : ConfigData) (row : Row) (p f : Nat) : SegRef := (charRef c row p f).getD default

/-- Under a checked configuration the tables give every resolved flag its SegmentRef (R41). -/
theorem charRef_eq_some_charSeg (c : Config) {row : Row} {p : Nat} (hp : p < rowPositions row) {f : Nat}
    (hf : f ∈ charFlagBits c.data) : charRef c.data row p f = some (charSeg c.data row p f) := by
  obtain ⟨hlt, hflag⟩ := mem_charFlagBits.mp hf
  obtain ⟨r, hr, -⟩ := charRef_valid c row p hp f hlt hflag
  rw [charSeg, hr, Option.getD_some]

theorem charRef_eq_some_iff {c : ConfigData} {row : Row} {p f : Nat} {r : SegRef} :
    charRef c row p f = some r ↔ ∃ inner, innerRef c row f = some inner ∧ ∃ outer,
      outerRef c row p inner.group = some outer ∧ ⟨outer.id, outer.base + inner.delta⟩ = r := by
  simp only [charRef, Option.bind_eq_some_iff, Option.map_eq_some_iff]

/-- The SET_BITs ResolveChar makes at a position of a row: the coupled mask's flag at each resolved flag's SegmentRef, in
ascending order. -/
def charSegWrites (c : ConfigData) (row : Row) (p : Nat) (m : Half) : List (SegRef × Bool) :=
  (charFlagBits c).map fun f => (charSeg c row p f, (couple m).getLsbD f)

theorem charWrites_eq_asWrites (c : Config) {row : Row} {p : Nat} (hp : p < rowPositions row) (m : Half) :
    charWrites c.data row p m = asWrites (charSegWrites c.data row p m) := by
  rw [charWrites, asWrites, charSegWrites, List.map_map]
  exact List.map_congr_left fun f hf => by rw [charRef_eq_some_charSeg c hp hf]; rfl

/-- In an open session a character setter at a position in range makes the SET_BITs of its row and ends OK. -/
theorem SetterAnswer.of_charWrites {s : State} {bad : Prop} {status : Status} {info : Byte} {o : Outcome} {row : Row} {p : Nat}
    {m : Half} (h : SetterAnswer s bad status info (charWrites s.cfg.data row p m) o) (hs : s.phase = .opened) (hb : ¬bad)
    (hp : p < rowPositions row) : o = .next ((s.writeBits (charSegWrites s.cfg.data row p m)).complete .ok .none) := by
  rw [charWrites_eq_asWrites s.cfg hp] at h
  exact h.of_good hs hb

/-- The SegmentRef of a resolved flag, by its row's two tables (R34, R35). -/
theorem charSeg_of_tables (c : Config) {row : Row} {p : Nat} (hp : p < rowPositions row) {f : Fin 16}
    (hf : c.data.charFlags.getLsbD f = true) {inner : InnerRef} (hi : innerRef c.data row f = some inner) :
    ∃ outer, outerRef c.data row p inner.group = some outer ∧
      charSeg c.data row p f = ⟨outer.id, outer.base + inner.delta⟩ := by
  obtain ⟨inner', hi', outer, ho, hr⟩ :=
    charRef_eq_some_iff.mp (charRef_eq_some_charSeg c hp (mem_charFlagBits.mpr ⟨f.isLt, hf⟩))
  obtain rfl : inner = inner' := Option.some.inj (hi.symm.trans hi')
  exact ⟨outer, ho, hr.symm⟩

theorem innerRef_top (c : ConfigData) (f : Fin 16) : innerRef c .top f = some c.topInner[f] := by
  simp [innerRef]

theorem innerRef_bot (c : ConfigData) (f : Fin 16) : innerRef c .bot f = some c.botInner[f] := by
  simp [innerRef]

theorem outerRef_top (c : ConfigData) {p : Nat} (hp : p < 8) (g : Nat) : outerRef c .top p g = (c.topOuter[p])[g]? := by
  simp [outerRef, hp]

theorem outerRef_bot (c : ConfigData) {p : Nat} (hp : p < 4) (g : Nat) : outerRef c .bot p g = (c.botOuter[p])[g]? := by
  simp [outerRef, hp]

/-- Settles O17: the top row's tables give each resolved flag its SegmentRef. -/
theorem tchrResult : Obligations.TchrResult := by
  intro s p m hs
  have ha := execTchr_answer p m s
  refine ⟨fun hbad => ha.of_bad hs hbad, fun hp => ⟨charSeg s.cfg.data .top p.toNat, fun f hf => ?_,
    ha.of_charWrites hs (by omega) hp⟩⟩
  rw [← outerRef_top _ hp]
  exact charSeg_of_tables s.cfg hp hf (innerRef_top _ f)

/-- Settles O18: the bottom row's tables give each resolved flag its SegmentRef. -/
theorem bchrResult : Obligations.BchrResult := by
  intro s p m hs
  have ha := execBchr_answer p m s
  refine ⟨fun hbad => ha.of_bad hs hbad, fun hp => ⟨charSeg s.cfg.data .bot p.toNat, fun f hf => ?_,
    ha.of_charWrites hs (by omega) hp⟩⟩
  rw [← outerRef_bot _ hp]
  exact charSeg_of_tables s.cfg hp hf (innerRef_bot _ f)

end Sys2Proof.Machine
end
section
/-! PROOFS. The FLUSH whose send is never answered, and the mask a completed FLUSH leaves (R103, R104, R151). -/

namespace Sys2Proof.Machine

section
variable {s t : State} (hp : s.phase = .opened)
include hp

theorem exec_flush_of_waiting {i : Fin 7} (h : flushLoop s.dirty bufferIndices s = .waiting i t) :
    exec .flush s = .next { t with cpWait := some i } := by
  simp only [exec, execFlush, whenOpen, hp, h]

/-- A FLUSH that completes answers OK and clears the mask, or leaves the mask of a failed one; one left waiting has not moved
`cidx`. -/
theorem exec_flush_dirty (h : exec .flush s = .next t) (hc : t.cidx = s.cidx + 1) :
    (t.resp = some ⟨.ok, .none⟩ ∧ t.dirty = 0) ∨ t.dirty = s.maskAfterFailure := by
  rcases execFlush_cases s hp with ⟨-, hf⟩ | ⟨pre, i, post, -, -, ⟨-, hf⟩ | ⟨-, hf⟩⟩ <;>
    (have ht := h.symm.trans hf; injection ht with ht; subst ht)
  · exact .inl ⟨rfl, rfl⟩
  · rw [State.dirtyAfterFailure_eq]
    exact .inr rfl
  · exact absurd hc (Nat.ne_of_lt (Nat.lt_succ_self s.cidx))

end

/-- Settles O25: the loop stops, waiting, at the first send that is not answered Ok. -/
theorem flushWaitsForEver : Obligations.FlushWaitsForEver := by
  intro s pre post i hp hd hok hnone
  rw [exec_flush_of_waiting hp ((flushLoop_stopsAt s.dirty s pre i post hd hok).2 hnone)]
  rfl

/-- Settles O26: both policies are read off the mask a FLUSH leaves when it answers OK and when it fails. -/
theorem flushDirtyPolicy : Obligations.FlushDirtyPolicy := by
  intro s t hp h hc
  rcases exec_flush_dirty hp h hc with ⟨hresp, hdirty⟩ | hdirty
  · refine ⟨fun _ => hdirty, fun _ d hr => ?_⟩
    rw [hresp] at hr
    cases hr
  · exact ⟨fun hkeep => by simp [hdirty, State.maskAfterFailure, hkeep],
      fun hkeep _ _ => by simp [hdirty, State.maskAfterFailure, hkeep]⟩

end Sys2Proof.Machine
end
section
/-! PROOFS. The keypad monitor's step by the answer to its read, GETKEY, the decoding of a key code, and a monitor that has
terminated (R106 to R114, R117). -/

namespace Sys2Proof.Machine

/-! ### KM's step, by whether it is enabled and what its read is answered (R106) -/

section
variable {s : State}

theorem kmStep_of_disabled (h : s.mon ≠ .running ∨ s.kmWait = true) : kmStep s = s :=
  if_neg fun ⟨hm, hw⟩ => h.elim (fun hne => hne hm) fun hwait => by simp [hw] at hwait

section
variable (hm : s.mon = .running) (hw : s.kmWait = false)
include hm hw

theorem kmStep_of_unanswered (h : s.nextReport = none) :
    kmStep s = { s with reports := s.reports.tail, kmWait := true } := by
  rw [kmStep, if_pos ⟨hm, hw⟩, h]

theorem kmStep_of_answer {r : ReportOutcome} (h : s.nextReport = some r) :
    kmStep s = State.takeReport { s with reports := s.reports.tail } r := by
  rw [kmStep, if_pos ⟨hm, hw⟩, h]

end

/-! ### What each answer does (R108 to R111) -/

theorem isKeyReport_iff (c : ConfigData) (x : Bytes8) :
    isKeyReport c x = true ↔ x[0] = c.keySig[0] ∧ x[1] = c.keySig[1] ∧ x[2] = c.keySig[2] := by
  simp only [isKeyReport, Bool.and_eq_true, beq_iff_eq, and_assoc]

theorem State.takeReport_transportError_of_limit (h : s.cfg.data.policy.readErrLimit ≤ s.errcnt + 1) :
    s.takeReport .transportError = { s with errcnt := s.errcnt + 1, mon := .terminated, chan := .empty } :=
  if_pos h

theorem State.takeReport_transportError_of_lt (h : s.errcnt + 1 < s.cfg.data.policy.readErrLimit) :
    s.takeReport .transportError = { s with errcnt := s.errcnt + 1 } :=
  if_neg (Nat.not_le_of_lt h)

theorem State.takeReport_keyReport {x : Bytes8} (h : isKeyReport s.cfg.data x = true) :
    s.takeReport (.report x) = { s with errcnt := 0, chan := .full (rawKeyCode x) } :=
  if_pos h

theorem State.takeReport_otherReport {x : Bytes8} (h : ¬isKeyReport s.cfg.data x = true) :
    s.takeReport (.report x) = { s with errcnt := 0 } :=
  if_neg h

end

/-- Settles O28. -/
theorem keypadTimeoutRule : Obligations.KeypadTimeoutRule :=
  fun _ hm hw hr => kmStep_of_answer hm hw hr

/-- Settles O29: the count after the failure either reaches the limit or stays below it. -/
theorem keypadReadFailureRule : Obligations.KeypadReadFailureRule := by
  intro s hm hw hr
  rw [kmStep_of_answer hm hw hr]
  exact ⟨State.takeReport_transportError_of_limit (s := { s with reports := s.reports.tail }),
    State.takeReport_transportError_of_lt (s := { s with reports := s.reports.tail })⟩

/-- Settles O30: one differing byte is enough for the report not to be a key report. -/
theorem nonKeyReportDiscarded : Obligations.NonKeyReportDiscarded := by
  intro s x hm hw hr hne
  have hother : ¬isKeyReport s.cfg.data x = true := by
    rw [isKeyReport_iff]
    rintro ⟨h0, h1, h2⟩
    rcases hne with hne | hne | hne
    · exact hne h0
    · exact hne h1
    · exact hne h2
  rw [kmStep_of_answer hm hw hr]
  exact State.takeReport_otherReport (s := { s with reports := s.reports.tail }) hother

/-- Settles O31: the report starts with KEY_SIG, and its raw key code is byte 3. -/
theorem keyReportPublished : Obligations.KeyReportPublished := by
  intro s k b4 b5 b6 b7 hm hw hr
  rw [kmStep_of_answer hm hw hr]
  exact State.takeReport_keyReport (s := { s with reports := s.reports.tail }) ((isKeyReport_iff _ _).mpr ⟨rfl, rfl, rfl⟩)

/-- Settles O32. -/
theorem monitorWithoutStep : Obligations.MonitorWithoutStep :=
  fun _ => ⟨kmStep_of_disabled, kmStep_of_unanswered⟩

/-! ### The consumer (R113, R114) -/

theorem exec_getkey (timeout : Half) (s : State) : exec (.getkey timeout) s = execGetkey timeout s := rfl

/-- Settles O34: of the answers GETKEY can give, the channel and the monitor leave one. -/
theorem getkeyResult : Obligations.GetkeyResult := by
  intro s timeout hp
  simp only [exec_getkey]
  rcases execGetkey_cases timeout s with ⟨hclosed, -⟩ | ⟨-, k, hc, h⟩ | ⟨-, hc, hm, h⟩ | ⟨-, hc, hm, h⟩
  · simp [hp] at hclosed
  · refine ⟨fun k' hk => ?_, by simp [hc], by simp [hc]⟩
    obtain rfl : k = k' := by simpa [hc] using hk
    exact h
  · exact ⟨by simp [hc], fun _ _ => h, by simp [hm]⟩
  · exact ⟨by simp [hc], fun _ ht => absurd ht hm, fun _ _ => h⟩

/-- Settles O37: the five bits from bit 0 on are the value mod 32. -/
theorem keyDecodeRule : Obligations.KeyDecodeRule := by
  intro k
  refine ⟨rfl, ?_⟩
  simp only [keyDecode, BitVec.extractLsb'_toNat, Nat.shiftRight_zero]

/-! ### A monitor that has terminated (R109, R117) -/

/-- An open session whose keypad support is lost: the monitor has terminated and no event is pending (R109). -/
def KeypadLost (s : State) : Prop := s.phase = .opened ∧ s.mon = .terminated ∧ s.chan = .empty

/-- A command finds no event to take and cannot open the session again; only CLOSE ends the loss. -/
theorem exec_keypadLost {i : Instr} {s t : State} (hl : KeypadLost s) (h : exec i s = .next t) :
    KeypadLost t ∨ (t.phase = .closed ∧ t.mon = .stopped) := by
  obtain ⟨hp, hm, hc⟩ := hl
  cases exec_answer h with
  | gated hg ht => exact .inl (ht ▸ ⟨hp, hm, hc⟩)
  | opens hclosed hi ht => simp [hp] at hclosed
  | closes ho hi ht => exact .inr (ht ▸ ⟨rfl, rfl⟩)
  | responds status data ho hi hst ht => exact .inl (ht ▸ ⟨hp, hm, hc⟩)
  | takesKey k ho hi hfull ht => simp [hc] at hfull
  | writes status data buf dirty ho hi hst hb hw ht => exact .inl (ht ▸ ⟨hp, hm, hc⟩)
  | flushes ho hi =>
    subst hi
    rcases execFlush_next hp h with ⟨rs, dirty, status, data, rfl⟩ | ⟨rs, sends, i, rfl⟩ <;> exact .inl ⟨hp, hm, hc⟩

/-- Settles O35: a terminated monitor has no step, and of CP's moves only CLOSE changes the session or the monitor. -/
theorem terminatedUntilClose : Obligations.TerminatedUntilClose := by
  intro s t hp hm hc h
  have hl : KeypadLost s := ⟨hp, hm, hc⟩
  rcases step_cases h with ⟨-, rfl⟩ | ⟨-, -, rfl⟩ | ⟨-, -, c, rest, -, ⟨i, -, he⟩ | ⟨why, cause, -, rfl⟩⟩
  · have hne : s.advance.mon ≠ .running := by simp [hm]
    rw [kmStep_of_disabled (.inl hne)]
    exact .inl hl
  · exact .inl hl
  · exact exec_keypadLost (s := { s.advance with port := rest }) hl he
  · exact .inl hl

end Sys2Proof.Machine
end
section
/-! PROOFS. LOAD of a text with all its tokens and of one with a bad or missing token, under either policy, and the session a
reopened block has (R116, R117, R119 to R121, R123, R143). -/

namespace Sys2Proof.Machine

/-! ### What the bytes of a text leave, stored from place 0 on (R119, R120) -/

section
variable (s : State) (vs : List Byte)

/-- Payload places below the number of bytes hold them; every other byte is as before. -/
theorem State.loadBytes_payload (hwf : s.buf.wf) (a : Nat) :
    if a < vs.length ∧ 3 ≤ a % 8 then vs[a]? = some ((s.loadBytes 0 vs).byteAt a)
    else (s.loadBytes 0 vs).byteAt a = s.byteAt a := by
  split
  · next h =>
    obtain ⟨hlt, h3⟩ := h
    rw [s.loadBytes_byteAt 0 vs hwf, if_pos ⟨Nat.zero_le a, h3⟩, Nat.sub_zero, List.getElem?_eq_getElem hlt, Option.getD_some]
  · next h => exact s.loadBytes_byteAt_ne 0 vs a (by omega)

/-- Buffer i gets a payload byte iff its first payload place, 8 * i + 3, does (R120). -/
theorem State.loadBytes_dirty_getLsbD {i : Nat} (hi : i < 7) :
    (s.loadBytes 0 vs).dirty.getLsbD i = (s.dirty.getLsbD i || decide (8 * i + 3 < vs.length)) := by
  rw [s.loadBytes_dirty 0 vs i hi]
  congr 1
  rw [Bool.eq_iff_iff]
  simp only [List.any_eq_true, List.mem_range'_1, Bool.and_eq_true, decide_eq_true_eq, beq_iff_eq]
  constructor
  · rintro ⟨x, hx, h3, hdiv⟩
    omega
  · intro h
    exact ⟨8 * i + 3, by omega, by omega, by omega⟩

end

/-! ### LOAD of a text with a bad or missing token (R119, R121, R123) -/

/-- LOAD answers InvalidFormat with the place of the first bad or missing token; the policy says whether the bytes before it are
stored. -/
theorem exec_load_of_bad {s : State} (hp : s.phase = .opened) {text : List Byte}
    (hlt : (loadValues text).length < stateTokens) :
    exec (.load text) s = raise .invalidFormat (placeByte (loadValues text).length)
      (if s.cfg.data.policy.loadAtomic then s else s.loadBytes 0 (loadValues text)) := by
  change execLoad text s = _
  rcases execLoad_cases text s with ⟨hc, -⟩ | ⟨-, heq, -⟩ | ⟨-, heq, -⟩ | ⟨-, -, ha, hn⟩ | ⟨-, -, ha, hn⟩
  · rw [hp] at hc
    cases hc
  · exact absurd heq (Nat.ne_of_lt hlt)
  · exact absurd heq (Nat.ne_of_lt hlt)
  · rw [hn, ha, if_neg Bool.false_ne_true]
  · rw [hn, ha, if_pos rfl]

/-! ### LOAD of a text, whole or not (R119 to R121) -/

/-- Settles O42: either policy stores all the values and sets the whole mask. -/
theorem loadStoresAllPayload : Obligations.LoadStoresAllPayload := by
  intro s text hp hwf hlen
  refine ⟨_, exec_load_of_full hp hlen, by rw [State.loadBytes_frame]; rfl, ?_⟩
  exact hlen ▸ s.loadBytes_payload (loadValues text) hwf

/-- Settles O43: the values before the bad token are stored, and the rest of the state is as before. -/
theorem loadFailsProgressively : Obligations.LoadFailsProgressively := by
  intro s text hp hwf hpolicy hlt
  have hexec := exec_load_of_bad hp hlt
  rw [hpolicy, if_neg Bool.false_ne_true] at hexec
  exact ⟨_, hexec, by rw [State.loadBytes_frame]; rfl, s.loadBytes_payload (loadValues text) hwf,
    fun _ hj => s.loadBytes_dirty_getLsbD (loadValues text) hj⟩

/-- Settles O44. -/
theorem loadFailsAtomically : Obligations.LoadFailsAtomically := by
  intro s text hp hpolicy hlt
  rw [exec_load_of_bad hp hlt, hpolicy, if_pos rfl]
  rfl

/-! ### CLOSE, then OPEN (R116, R117, R143) -/

/-- Settles O57: CLOSE ends in the phase OPEN needs, and OPEN writes every part of the session from the configuration alone. -/
theorem reopenedSessionIsFresh : Obligations.ReopenedSessionIsFresh :=
  fun _ hp => ⟨_, _, _, exec_closeSession_opened hp, exec_openSession_closed rfl, exec_openSession_closed rfl,
    rfl, rfl, rfl, rfl, rfl, rfl, rfl, rfl, rfl, rfl, rfl⟩

end Sys2Proof.Machine
end
section
/-! PROOFS. The statuses commands end with: the phase check, what an error leaves as it was, and the statuses that are never given
(R125, R127, R134). -/

namespace Sys2Proof.Machine

/-! ### The phase check (R125) -/

theorem exec_openSession_opened {s : State} (h : s.phase = .opened) :
    exec .openSession s = illegal .wrongPhase s := by
  simp only [exec, execOpen, whenClosed, h]

/-- OPEN, FONTD and FONTC answer OK while Closed. -/
theorem exec_runsClosed_ok {i : Instr} {s : State} (hp : s.phase = .closed) (hi : runsClosed i = true) :
    ∃ t d, exec i s = .next t ∧ t.resp = some ⟨.ok, d⟩ := by
  cases i with
  | openSession => exact ⟨_, _, exec_openSession_closed hp, rfl⟩
  | fontd ch => exact ⟨_, _, rfl, rfl⟩
  | fontc ch => exact ⟨_, _, rfl, rfl⟩
  | _ => cases hi

/-- Settles O46. -/
theorem phaseGating : Obligations.PhaseGating :=
  fun _ _ => ⟨exec_closed, exec_runsClosed_ok, exec_openSession_opened⟩

/-! ### How a command that completes has ended (R123, R127) -/

/-- The statuses a command may end with after it has written: OK, and the two errors R127 excepts. -/
def Status.mayFollowWrites (status : Status) : Prop :=
  status = .ok ∨ status = .transportError ∨ status = .invalidFormat

theorem Status.mayFollowWrites_ne_timeout {status : Status} (h : status.mayFollowWrites) : status ≠ .timeout := by
  rcases h with rfl | rfl | rfl <;> decide

/-- A FLUSH that completes answers OK or TransportError; one left waiting has not moved `cidx`. -/
theorem exec_flush_status {s t : State} (hp : s.phase = .opened) (h : exec .flush s = .next t) (hc : t.cidx = s.cidx + 1) :
    ∃ status data, t.resp = some ⟨status, data⟩ ∧ status.mayFollowWrites := by
  rcases execFlush_cases s hp with ⟨-, hf⟩ | ⟨pre, i, post, -, -, ⟨-, hf⟩ | ⟨-, hf⟩⟩ <;>
    (have ht := h.symm.trans hf; injection ht with ht; subst ht)
  · exact ⟨_, _, rfl, .inl rfl⟩
  · exact ⟨_, _, rfl, .inr (.inl rfl)⟩
  · exact absurd hc (Nat.ne_of_lt (Nat.lt_succ_self s.cidx))

/-- A command that completes ends with a status that may follow writes, or it has only responded, and not with Timeout. -/
theorem exec_completed {i : Instr} {s t : State} (h : exec i s = .next t) (hc : t.cidx = s.cidx + 1) :
    (∃ status data, t.resp = some ⟨status, data⟩ ∧ status.mayFollowWrites) ∨
    (∃ status data, status ≠ .timeout ∧ t = s.complete status data) := by
  cases exec_answer h with
  | gated hp ht => exact .inr ⟨_, _, by decide, ht⟩
  | responds status data hp hi hst ht => exact .inr ⟨status, data, hst, ht⟩
  | opens hp hi ht => exact .inl (ht ▸ ⟨_, _, rfl, .inl rfl⟩)
  | closes hp hi ht => exact .inl (ht ▸ ⟨_, _, rfl, .inl rfl⟩)
  | takesKey k hp hi hchan ht => exact .inl (ht ▸ ⟨_, _, rfl, .inl rfl⟩)
  | writes status data buf dirty hp hi hst hb hw ht => exact .inl (ht ▸ ⟨_, _, rfl, hst.imp_right .inr⟩)
  | flushes hp hi =>
    subst hi
    exact .inl (exec_flush_status hp h hc)

/-- Settles O47: with any other status the command has only responded. -/
theorem errorsLeaveState : Obligations.ErrorsLeaveState := by
  intro i s t r h hc hr hok htransport hformat
  rcases exec_completed h hc with ⟨status, data, hresp, hst⟩ | ⟨status, data, -, rfl⟩
  · obtain rfl : ⟨status, data⟩ = r := Option.some.inj (hresp.symm.trans hr)
    exact absurd hst (by simp [Status.mayFollowWrites, hok, htransport, hformat])
  · obtain rfl : ⟨status, data⟩ = r := Option.some.inj hr
    rfl

/-! ### The statuses that are never given (R134) -/

/-- R113 asks whether the monitor has terminated before it answers Idle. -/
theorem exec_getkey_terminated {timeout : Half} {s t : State} (hm : s.mon = .terminated)
    (h : exec (.getkey timeout) s = .next t) (d : RespData) : t.resp ≠ some ⟨.idle, d⟩ := by
  rw [exec_getkey] at h
  rcases execGetkey_cases timeout s with ⟨-, ha⟩ | ⟨-, k, -, ha⟩ | ⟨-, -, -, ha⟩ | ⟨-, -, hne, -⟩
  case inr.inr.inr => exact absurd hm hne
  all_goals
    have ht := h.symm.trans ha
    injection ht with ht
    subst ht
    nofun

theorem exec_not_timeout {i : Instr} {s t : State} (h : exec i s = .next t) (hc : t.cidx = s.cidx + 1) (d : RespData) :
    t.resp ≠ some ⟨.timeout, d⟩ := by
  rcases exec_completed h hc with ⟨status, data, hresp, hst⟩ | ⟨status, data, hst, rfl⟩
  · simp [hresp, Status.mayFollowWrites_ne_timeout hst]
  · simp [hst]

/-- Settles O36: of a step's moves only a completed command and an illegal word advance `cidx`, and neither answers Timeout. -/
theorem neitherIdleNorTimeout : Obligations.NeitherIdleNorTimeout := by
  refine ⟨fun s t timeout hm h => exec_getkey_terminated hm h, fun s t h hc => ?_⟩
  have hstill : s.cidx ≠ s.cidx + 1 := Nat.ne_of_lt (Nat.lt_succ_self s.cidx)
  rcases step_cases h with ⟨-, rfl⟩ | ⟨-, -, rfl⟩ | ⟨-, -, c, rest, -, ⟨i, -, he⟩ | ⟨why, cause, -, rfl⟩⟩
  · exact absurd ((kmStep_cidx s.advance).symm.trans hc) hstill
  · exact absurd hc hstill
  · exact exec_not_timeout (s := { s.advance with port := rest }) he hc
  · nofun

end Sys2Proof.Machine
end

section
/-! PROOFS. What reset leaves, and a command path that waits for ever (R142, R151). -/

namespace Sys2Proof.Machine

/-- Settles O50: power-up gives each field its value, and the configuration carries the checks it has passed. -/
theorem resetState : Obligations.ResetState :=
  ⟨rfl, rfl, rfl, rfl, rfl, rfl, State.reset.cfg.ok⟩

/-- While CP waits, a step is a move of KM or a turn that passes (R151): no command and no illegal word is run. -/
theorem step_cases_of_cpWait {s t : State} (hw : s.cpWait ≠ none) (h : step s = .next t) :
    t = kmStep s.advance ∨ t = s.advance := by
  rcases step_cases h with ⟨-, ht⟩ | ⟨-, -, ht⟩ | ⟨-, hnone, -⟩
  · exact .inl ht
  · exact .inr ht
  · exact absurd hnone hw

/-- Settles O58: KM keeps to its frame, and a turn that passes moves the schedule only. -/
theorem waitingCommandPathIsStuck : Obligations.WaitingCommandPathIsStuck := by
  intro s t hw h
  rcases step_cases_of_cpWait hw h with rfl | rfl
  · exact kmStep_frame s.advance
  · rfl

end Sys2Proof.Machine
end
